-- ==== Sys2Proof/Word.lean ====
section
/-! DEFINITION. The words of the unit: the fixed widths of rule R9 (`00_scope.md`) and the size of the one address
space (rule R33, `20_memory.md`). -/

namespace Sys2Proof

/-- One byte, 8 bits (R33). -/
abbrev Byte := BitVec 8

/-- A 32-bit word: a linear address, a `base`, a `limit` operand (R9). -/
abbrev Word := BitVec 32

/-- An 8-byte descriptor read as one number, byte 0 least significant (R10, R48). -/
abbrev Descriptor := BitVec 64

/-- A 6-byte descriptor pointer read as one number, byte 0 least significant (R10, R56). -/
abbrev PointerWord := BitVec 48

/-- A 16-bit selector (R57). -/
abbrev SelectorWord := BitVec 16

/-- The number of byte addresses of the linear space: addresses run from 0 to `2^32 - 1` (R33). -/
def addressSpace : Nat := 4294967296

end Sys2Proof
end

