-- ==== Sys2Proof/Config.lean ====
section
/-! DEFINITION. The configuration record of the unit (rules R6, R7, R8 of `00_scope.md`): constant for a run, "not
state" (R32), carried in State so that every meaning and every statement takes it as an argument (log 1). -/

namespace Sys2Proof

/-- What `ENCODE`, `INSTALL_TSS` and `INIT` do with a limit above `0xFFFFF` (R8, U1). -/
inductive LimitPolicy where
  | reject
  | truncate
  deriving DecidableEq, Repr

/-- Which four bits of the 8-bit `flags` operand are significant (R8, R52). -/
inductive FlagsAlign where
  | low
  | high
  deriving DecidableEq, Repr

/-- The configuration record: table geometry (R6), placement (R7), policies (R8). `IDX_NULL` is no field: it is 0 and
not configurable. -/
structure Config where
  /-- `GDT_ENTRIES`, the number of 8-byte entries. -/
  gdtEntries  : Nat
  /-- `IDX_KCODE`. -/
  idxKcode    : Nat
  /-- `IDX_KDATA`. -/
  idxKdata    : Nat
  /-- `IDX_UCODE`. -/
  idxUcode    : Nat
  /-- `IDX_UDATA`. -/
  idxUdata    : Nat
  /-- `IDX_TSS`. -/
  idxTss      : Nat
  /-- `TABLE_ADDR`, linear address of byte 0 of entry 0. -/
  tableAddr   : Word
  /-- `TSS_ADDR`, linear address of the TSS Record. -/
  tssAddr     : Word
  /-- `TSS_SIZE`, size in bytes of the TSS Record. -/
  tssSize     : Word
  /-- `LIMIT_POLICY`. -/
  limitPolicy : LimitPolicy
  /-- `FLAGS_ALIGN`. -/
  flagsAlign  : FlagsAlign
  deriving DecidableEq, Repr

/-- `IDX_NULL` is 0 (R6). -/
def idxNull : Nat := 0

/-- The configuration State.reset carries. Geometry and policies are the values R6 and R8 give. The three placement
values are left open by R7: those of the spec's own examples (R106, R94) stand here. DESIGN CHOICE (log 2): no
statement rests on them. -/
def Config.chosen : Config where
  gdtEntries  := 6
  idxKcode    := 1
  idxKdata    := 2
  idxUcode    := 3
  idxUdata    := 4
  idxTss      := 5
  tableAddr   := 0x00100800
  tssAddr     := 0x00123456
  tssSize     := 104
  limitPolicy := .reject
  flagsAlign  := .low

end Sys2Proof
end

