-- ==== Sys2Proof/Syntax.lean ====
section
/-! DEFINITION. The commands of the unit as syntax: one constructor per row of spec/opcode_table.json (rule R64), each
with exactly the operand ports rule R60 gives it at the widths of rule R13; and `Ports`, one assignment of values to
all the input ports of rule R13, which is the form in which a command reaches the unit (rule R59). -/

namespace Sys2Proof

/-- The seven commands (R64) with the operands each reads (R60). Every value of every operand is a legal encoding
(R66, R67): the widths are in the types. -/
inductive Instr where
  /-- `ENCODE`, op 0x1 (R74). -/
  | encode (base limit : Word) (access flags : Byte)
  /-- `DECODE`, op 0x2 (R75). -/
  | decode (descIn : Descriptor)
  /-- `SELECTOR`, op 0x3 (R89). -/
  | selector (index : BitVec 13) (rpl : BitVec 2)
  /-- `TABLE_LOAD`, op 0x4 (R106). -/
  | tableLoad
  /-- `INSTALL_TSS`, op 0x5 (R94). -/
  | installTss (tssIndex : BitVec 13) (tssAddress tssSize : Word)
  /-- `TR_LOAD`, op 0x6 (R107). -/
  | trLoad
  /-- `INIT`, op 0x7 (R113). -/
  | init (tssAddress tssSize : Word)
  deriving DecidableEq, Repr

/-- The input ports (R13): the values the harness holds on them for one command. -/
structure Ports where
  op         : BitVec 4
  base       : Word
  limit      : Word
  access     : Byte
  flags      : Byte
  descIn     : Descriptor
  index      : BitVec 13
  rpl        : BitVec 2
  tssIndex   : BitVec 13
  tssAddress : Word
  tssSize    : Word
  deriving DecidableEq, Repr

/-- All ports at zero. -/
def Ports.zero : Ports := ⟨0, 0, 0, 0, 0, 0, 0, 0, 0, 0, 0⟩

/-- The pure commands: `ENCODE`, `DECODE`, `SELECTOR` (R12, R64). -/
def Instr.isPure : Instr → Bool
  | .encode _ _ _ _   => true
  | .decode _         => true
  | .selector _ _     => true
  | .tableLoad        => false
  | .installTss _ _ _ => false
  | .trLoad           => false
  | .init _ _         => false

/-- The sequenced commands: the other four (R12, R64). -/
def Instr.isSequenced (i : Instr) : Bool := !i.isPure

end Sys2Proof
end

