-- ==== Sys2Proof/WellFormed.lean ====
section
/-! DEFINITION. Well-formedness: the premise rules R6 and R7 put on the configuration record, clause by clause, and the
canonical form of a command on the ports (every port the command does not read, rule R60, at zero). An `Instr` needs
no check of its own: every value its operands can carry is legal (rules R66, R67). -/

namespace Sys2Proof

/-- R6, D20: the six indices (0 is `IDX_NULL`) are pairwise distinct. -/
abbrev Config.indicesDistinct (c : Config) : Prop :=
  [idxNull, c.idxKcode, c.idxKdata, c.idxUcode, c.idxUdata, c.idxTss].Pairwise (· ≠ ·)

/-- R6, D20: each index is less than `GDT_ENTRIES`. -/
abbrev Config.indicesInRange (c : Config) : Prop :=
  ∀ i ∈ [idxNull, c.idxKcode, c.idxKdata, c.idxUcode, c.idxUdata, c.idxTss], i < c.gdtEntries

/-- R6, D20: `GDT_ENTRIES` is at most 8192. -/
abbrev Config.entriesFit (c : Config) : Prop := c.gdtEntries ≤ 8192

/-- R7, D21: `TABLE_ADDR + 8*GDT_ENTRIES <= 2^32`. -/
abbrev Config.tableFits (c : Config) : Prop := c.tableAddr.toNat + 8 * c.gdtEntries ≤ addressSpace

/-- R7, D21: `TSS_ADDR + TSS_SIZE <= 2^32`. -/
abbrev Config.tssFits (c : Config) : Prop := c.tssAddr.toNat + c.tssSize.toNat ≤ addressSpace

/-- R7, D21: the TSS Record does not overlap the table. DESIGN CHOICE (log 24): an empty record (`TSS_SIZE` 0, which R7 does
not forbid) strictly inside the table counts as overlapping it, on which the spec is silent. -/
abbrev Config.regionsApart (c : Config) : Prop :=
  c.tssAddr.toNat + c.tssSize.toNat ≤ c.tableAddr.toNat ∨
    c.tableAddr.toNat + 8 * c.gdtEntries ≤ c.tssAddr.toNat

/-- The premise of the configuration record (R6, R7): a premise of statements, never a run-time check (R6). -/
abbrev Config.wf (c : Config) : Prop :=
  c.indicesDistinct ∧ c.indicesInRange ∧ c.entriesFit ∧ c.tableFits ∧ c.tssFits ∧ c.regionsApart

/-- The ports a command reads (R60), by operation code, as a mask: every other port of `p` set to zero. A reserved code
reads no operand port. -/
def Ports.readBy (p : Ports) : Ports :=
  match p.op.toNat with
  | 1 => { Ports.zero with op := p.op, base := p.base, limit := p.limit, access := p.access, flags := p.flags }
  | 2 => { Ports.zero with op := p.op, descIn := p.descIn }
  | 3 => { Ports.zero with op := p.op, index := p.index, rpl := p.rpl }
  | 5 => { Ports.zero with op := p.op, tssIndex := p.tssIndex, tssAddress := p.tssAddress, tssSize := p.tssSize }
  | 7 => { Ports.zero with op := p.op, tssAddress := p.tssAddress, tssSize := p.tssSize }
  | _ => { Ports.zero with op := p.op }

/-- The canonical form of a command on the ports: the ports it does not read are zero. -/
abbrev Ports.canonical (p : Ports) : Prop := p.readBy = p

end Sys2Proof
end

