-- ==== Sys2Proof/Decode.lean ====
section
/-! DEFINITION. The decoder and the encoder. A command reaches the unit on its ports (rule R59); the decoder reads
`op[3:0]` and nothing else to select the command (rule R64) and takes the operand ports rule R60 names. A command is
not packed into a word (rule R59): the 32-byte image below is the model's own way to write one assignment of the
ports down as bytes, for the host (DESIGN CHOICE, log 6). -/

namespace Sys2Proof

/-! ### Bytes and numbers, little-endian (rules R10, R35) -/

/-- The number whose bytes are `bs`, the first byte least significant (R35). -/
def leNat : List Byte → Nat
  | [] => 0
  | b :: bs => b.toNat + 256 * leNat bs

/-- The low `n` bytes of `v`, least significant first (R35). -/
def bytesLE : Nat → Nat → List Byte
  | 0, _ => []
  | n + 1, v => BitVec.ofNat 8 v :: bytesLE n (v / 256)

/-! ### The opcode map (rule R64) -/

/-- Why the decoder gives no command. -/
inductive Reject where
  /-- The operation code is reserved: 0x0 or 0x8 to 0xF (R65). -/
  | reservedOp (op : BitVec 4)
  deriving DecidableEq, Repr

/-- Select the command by `op` (R64) and take its operands from the ports it reads (R60). -/
def decodePorts (p : Ports) : Except Reject Instr :=
  match p.op.toNat with
  | 1 => .ok (.encode p.base p.limit p.access p.flags)
  | 2 => .ok (.decode p.descIn)
  | 3 => .ok (.selector p.index p.rpl)
  | 4 => .ok .tableLoad
  | 5 => .ok (.installTss p.tssIndex p.tssAddress p.tssSize)
  | 6 => .ok .trLoad
  | 7 => .ok (.init p.tssAddress p.tssSize)
  | _ => .error (.reservedOp p.op)

/-- The operation code of a command (R64). -/
def Instr.opcode : Instr → BitVec 4
  | .encode _ _ _ _   => 0x1
  | .decode _         => 0x2
  | .selector _ _     => 0x3
  | .tableLoad        => 0x4
  | .installTss _ _ _ => 0x5
  | .trLoad           => 0x6
  | .init _ _         => 0x7

/-- The command on the ports: its code on `op`, its operands on the ports R60 names, every other port zero. -/
def encodePorts (i : Instr) : Ports :=
  match i with
  | .encode base limit access flags =>
    { Ports.zero with op := i.opcode, base := base, limit := limit, access := access, flags := flags }
  | .decode d => { Ports.zero with op := i.opcode, descIn := d }
  | .selector index rpl => { Ports.zero with op := i.opcode, index := index, rpl := rpl }
  | .tableLoad => { Ports.zero with op := i.opcode }
  | .installTss k a n => { Ports.zero with op := i.opcode, tssIndex := k, tssAddress := a, tssSize := n }
  | .trLoad => { Ports.zero with op := i.opcode }
  | .init a n => { Ports.zero with op := i.opcode, tssAddress := a, tssSize := n }

/-! ### The byte image of the ports (log 6)

The ports of rule R13 in its order, each in whole bytes, little-endian: `op` 1 byte, `base` 4, `limit` 4, `access` 1,
`flags` 1, `desc_in` 8, `index` 2, `rpl` 1, `tss_index` 2, `tss_address` 4, `tss_size` 4. A bit of the image above a
port's width is no wire of the unit and is ignored. -/

/-- The ports an image stands for. -/
def Ports.ofImage (w : BitVec 256) : Ports where
  op         := w.extractLsb' 0 4
  base       := w.extractLsb' 8 32
  limit      := w.extractLsb' 40 32
  access     := w.extractLsb' 72 8
  flags      := w.extractLsb' 80 8
  descIn     := w.extractLsb' 88 64
  index      := w.extractLsb' 152 13
  rpl        := w.extractLsb' 168 2
  tssIndex   := w.extractLsb' 176 13
  tssAddress := w.extractLsb' 192 32
  tssSize    := w.extractLsb' 224 32

/-- The image of the ports, `op` least significant, the bits with no wire at zero. -/
def Ports.image (p : Ports) : BitVec 256 :=
  p.tssSize ++ p.tssAddress ++ (0#3 ++ p.tssIndex) ++ (0#6 ++ p.rpl) ++ (0#3 ++ p.index) ++ p.descIn ++
    p.flags ++ p.access ++ p.limit ++ p.base ++ (0#4 ++ p.op)

/-- Decode any list of bytes: bytes an image shorter than 32 lacks are zero, bytes beyond the 32nd are no port. -/
def decodeBytes (bs : List Byte) : Except Reject Instr :=
  decodePorts (Ports.ofImage (BitVec.ofNat 256 (leNat bs)))

/-- The 32 bytes of a command. -/
def encodeBytes (i : Instr) : List Byte :=
  bytesLE 32 (encodePorts i).image.toNat

/-- The ports that the opcode table's word `w` of `nbits` bits puts forward: bit 0 of `w` is bit 0 of `op`, and every bit
from `nbits` on is zero. -/
def Ports.ofTableWord (nbits w : Nat) : Ports :=
  Ports.ofImage (BitVec.ofNat 256 (w % 2 ^ nbits))

/-- The command the decoder reads from a word numbered as spec/opcode_table.json numbers it. -/
def decodeTableWord (nbits w : Nat) : Option Instr :=
  match decodePorts (Ports.ofTableWord nbits w) with
  | .ok i => some i
  | .error _ => none

/-! ### The textual form (rule R69) -/

/-- One operand as `name=value`, the value in decimal, as rule R69 writes an index, a level and a size. -/
def decText (name : String) (v : Nat) : String := " " ++ name ++ "=" ++ toString v

/-- One operand as `name=value`, the value in hexadecimal at `digits` digits or more, as rule R69 writes the others. -/
def hexText (name : String) (digits v : Nat) : String :=
  let ds := (Nat.toDigits 16 v).map Char.toUpper
  " " ++ name ++ "=0x" ++ String.ofList (List.replicate (digits - ds.length) '0' ++ ds)

/-- The textual form of a command (R69): the mnemonic, then its operands as `name=value` pairs, each value in the base and
at the digits of the rule's own lines (log 21). -/
def Instr.text : Instr → String
  | .encode base limit access flags =>
    "ENCODE" ++ hexText "base" 1 base.toNat ++ hexText "limit" 1 limit.toNat ++ hexText "access" 2 access.toNat ++
      hexText "flags" 2 flags.toNat
  | .decode d => "DECODE" ++ hexText "desc_in" 16 d.toNat
  | .selector index rpl => "SELECTOR" ++ decText "index" index.toNat ++ decText "rpl" rpl.toNat
  | .tableLoad => "TABLE_LOAD"
  | .installTss k a n =>
    "INSTALL_TSS" ++ decText "tss_index" k.toNat ++ hexText "tss_address" 8 a.toNat ++ decText "tss_size" n.toNat
  | .trLoad => "TR_LOAD"
  | .init a n => "INIT" ++ hexText "tss_address" 8 a.toNat ++ decText "tss_size" n.toNat

end Sys2Proof
end

