-- ==== Sys2Proof/Machine/State.lean ====
section
/-! DEFINITION. The state of the unit (file `10_state.md`), its reset value (rule R31), and the reasons a step can stop.
State is plain data and holds every piece of state the spec gives the unit, the input ports of the commands still to be
issued (log 5), and the configuration record, which no step changes (log 1). -/

namespace Sys2Proof.Machine

open Sys2Proof

/-- `PHASE`, the sequencing state (R14): four values in this order. Its 2-bit code is `Phase.code`. -/
inductive Phase where
  | unloaded
  | tableLoaded
  | tssInstalled
  | taskRegisterLoaded
  deriving DecidableEq, Repr

/-- The configuration errors a command of the unit can find (R120, codes 1 to 4). -/
inductive ConfigError where
  | limitOverflow
  | orderViolation
  | indexOutOfRange
  | badTssSize
  deriving DecidableEq, Repr

/-- `CAUSE` (R17): `None`, or the first configuration error. Its 3-bit code is `Cause.code` (R120). `ReservedOp` is never
sticky (R65) and `Halted` appears only in `status` (R120), so neither is a value of `CAUSE` (log 19). -/
inductive Cause where
  | none
  | error (e : ConfigError)
  deriving DecidableEq, Repr

/-- `status`, the result code of a command (R20, R120). Its 3-bit code is `Status.code`; code 7 is never produced. -/
inductive Status where
  | ok
  | error (e : ConfigError)
  | reservedOp
  | halted
  deriving DecidableEq, Repr

/-- One call across the Load Boundary (R19, R103). -/
inductive Event where
  /-- `LoadDescriptorTable(p)`, `p` a 48-bit copy of `PTR` (R104). -/
  | loadDescriptorTable (p : PointerWord)
  /-- `LoadTaskRegister(s)`, `s` a 16-bit selector (R105). -/
  | loadTaskRegister (s : SelectorWord)
  deriving DecidableEq, Repr

/-- The output ports (R13). A port the last command did not write holds no value (R13, R31, D9, U20): `none`. -/
structure Outputs where
  status      : Option Status       := none
  descOut     : Option Descriptor   := none
  baseOut     : Option Word         := none
  limitOut    : Option Word         := none
  accessOut   : Option Byte         := none
  flagsOut    : Option Byte         := none
  selectorOut : Option SelectorWord := none
  deriving DecidableEq, Repr

/-- Memory: the bytes that have a value, by linear address (R33), in one canonical form, `Memory.wf`. A byte not listed
reads as no value (R31: "any value, and a model must not assume zero"; log 4). -/
abbrev Memory := List Host.Cell

/-- The canonical form: addresses strictly rising, each in the 32-bit space (R33). An unlisted address reads as no value,
so no listed byte equals it. -/
abbrev Memory.wf (m : Memory) : Prop :=
  (m.map Prod.fst).Pairwise (· < ·) ∧ ∀ c ∈ m, c.1 < addressSpace

/-- The state of the unit. -/
structure State where
  /-- The configuration record (R6 to R8), constant for a run (R32, R63). -/
  cfg   : Config
  /-- `PHASE` (R14). -/
  phase : Phase
  /-- `FAULT`, one bit, sticky (R16). -/
  fault : Bool
  /-- `CAUSE`, the first fault (R17). -/
  cause : Cause
  /-- `PTR`, the Descriptor Pointer register (R18). -/
  ptr   : PointerWord
  /-- `EV`, the event trace, oldest first (R19). -/
  ev    : List Event
  /-- The linear address space: the table (R21), the TSS Record region (R27), the rest (R34). -/
  mem   : Memory
  /-- The output ports (R13). -/
  out   : Outputs
  /-- What the harness holds on the input ports (R13): the head is the command now issued, the tail the commands it will
  issue after that one has completed, in order (R41 (c), R143; log 5). Empty: no command is issued. -/
  input : List Ports
  deriving DecidableEq, Repr

/-- Why the machine stops. -/
inductive Fault where
  /-- Raised by an entry store that leaves the 32-bit linear space (R33). Only a configuration that breaks rule R7 asks
  for one. Safe: the spec gives such a configuration no meaning (log 7). -/
  | addressOutsideSpace
  deriving DecidableEq, Repr

/-- Why a command has no meaning. -/
inductive Refusal where
  /-- Raised by an arm of `exec` that has no meaning yet; no arm is left so. Safe: nothing follows from it. -/
  | notModelled (mnemonic : String)
  deriving DecidableEq, Repr

/-- The state after reset (R31, R137). `PTR` is unspecified by the spec: 0 here, DESIGN CHOICE (log 3). No byte of memory
has a value (log 4). No command is issued yet (R139). -/
def State.reset : State where
  cfg   := Config.chosen
  phase := .unloaded
  fault := false
  cause := .none
  ptr   := 0
  ev    := []
  mem   := []
  out   := {}
  input := []

end Sys2Proof.Machine
end

