-- ==== Sys2Proof/Machine/Flags.lean ====
section
/-! DEFINITION. The codes of `PHASE`, `status` and `CAUSE` (rules R14, R120), and the values of the output ports after a
command (rules R13, R20, R61). The unit has no other condition code (R20). -/

namespace Sys2Proof.Machine

/-- The 2-bit code of `PHASE` (R14). -/
def Phase.code : Phase → BitVec 2
  | .unloaded           => 0
  | .tableLoaded        => 1
  | .tssInstalled       => 2
  | .taskRegisterLoaded => 3

/-- The 3-bit code of a configuration error (R120). -/
def ConfigError.code : ConfigError → BitVec 3
  | .limitOverflow   => 1
  | .orderViolation  => 2
  | .indexOutOfRange => 3
  | .badTssSize      => 4

/-- The 3-bit code of `status` (R120). -/
def Status.code : Status → BitVec 3
  | .ok         => 0
  | .error e    => e.code
  | .reservedOp => 5
  | .halted     => 6

/-- The 3-bit code of `CAUSE` (R120). -/
def Cause.code : Cause → BitVec 3
  | .none    => 0
  | .error e => e.code

/-- The output ports after a command that writes no result port other than `status` (R61). -/
def Outputs.ofStatus (c : Status) : Outputs := { status := some c }

/-- The output ports after an `ENCODE` that returns `Ok` (R61). -/
def Outputs.encoded (d : Descriptor) : Outputs := { status := some .ok, descOut := some d }

/-- The output ports after a `DECODE` (R61). -/
def Outputs.decoded (base limit : Word) (access flags : Byte) : Outputs :=
  { status := some .ok, baseOut := some base, limitOut := some limit, accessOut := some access, flagsOut := some flags }

/-- The output ports after a `SELECTOR` (R61). -/
def Outputs.selected (s : SelectorWord) : Outputs := { status := some .ok, selectorOut := some s }

/-- Some result port other than `status` holds a value. -/
def Outputs.hasResult (o : Outputs) : Bool :=
  o.descOut.isSome || o.baseOut.isSome || o.limitOut.isSome || o.accessOut.isSome || o.flagsOut.isSome ||
    o.selectorOut.isSome

end Sys2Proof.Machine
end

