-- ==== Sys2Proof/Machine/Layout.lean ====
section
/-! DEFINITION. The bit positions and codes the spec supplies from general knowledge of x86 (entries G2 to G5 of
`93_implementation_defined.md`), as named constants in one place, as part 3 of that file asks, so that a reader with
the processor's manual can check them together. UNVERIFIED (log 9). They stand under Machine/ and not in
Config.lean so that a test may mend them. -/

namespace Sys2Proof.Layout

/-! ### The descriptor (R48, D2, G2): the lowest bit of each sub-field in the 64-bit word -/

/-- `limit[15:0]`, bytes 0 and 1. -/
abbrev limitLowPos : Nat := 0
/-- `base[15:0]`, bytes 2 and 3. -/
abbrev baseLowPos : Nat := 16
/-- `base[23:16]`, byte 4. -/
abbrev baseMidPos : Nat := 32
/-- `access[7:0]`, byte 5. -/
abbrev accessPos : Nat := 40
/-- `limit[19:16]`, low nibble of byte 6. -/
abbrev limitHighPos : Nat := 48
/-- `fn[3:0]`, high nibble of byte 6. -/
abbrev flagsPos : Nat := 52
/-- `base[31:24]`, byte 7. -/
abbrev baseHighPos : Nat := 56

/-! ### The access byte (R51, D3, G3) -/

/-- `P`, bit 7. -/
abbrev presentPos : Nat := 7
/-- `DPL`, bits 6:5. -/
abbrev dplPos : Nat := 5
/-- `S`, bit 4. -/
abbrev systemPos : Nat := 4
/-- `TYPE`, bits 3:0. -/
abbrev typePos : Nat := 0
/-- `E`, bit 3 of `TYPE` when `S = 1`. -/
abbrev execPos : Nat := 3
/-- `DC`, bit 2 of `TYPE` when `S = 1`. -/
abbrev dirConfPos : Nat := 2
/-- `RW`, bit 1 of `TYPE` when `S = 1`. -/
abbrev readWritePos : Nat := 1
/-- `A`, bit 0 of `TYPE` when `S = 1`. -/
abbrev accessedPos : Nat := 0

/-! ### The flags nibble (R52, D4, G4) -/

/-- `G`, bit 3 of `fn`. -/
abbrev granularityPos : Nat := 3
/-- `DB`, bit 2 of `fn`. -/
abbrev operandSizePos : Nat := 2
/-- `L`, bit 1 of `fn`. -/
abbrev longPos : Nat := 1
/-- `AVL`, bit 0 of `fn`. -/
abbrev availablePos : Nat := 0

/-! ### System types (R54, D14, G5) -/

/-- An available 32-bit TSS. -/
abbrev typeAvailableTss : BitVec 4 := 0b1001

/-! ### The descriptor pointer (R56) and the selector (R57) -/

/-- `size[15:0]`, bytes 0 and 1 of the pointer. -/
abbrev pointerSizePos : Nat := 0
/-- `address[31:0]`, bytes 2 to 5 of the pointer. -/
abbrev pointerAddressPos : Nat := 16
/-- The table index, bits 15:3 of a selector. -/
abbrev selectorIndexPos : Nat := 3

end Sys2Proof.Layout
end

