-- ==== Sys2Proof/Machine/Operands.lean ====
section
/-! DEFINITION. Every operand form of the unit: the descriptor and its parts (rules R48 to R55, R70 to R73, R78), the
selector (R57, R89, R102), the pointer (R56, R100), the fields of the TSS descriptor (R92), and the effective address
of an entry store (R47). -/

namespace Sys2Proof.Machine

open Sys2Proof

/-! ### Descriptors (R48, R70, R71) -/

/-- The four logical fields of a descriptor (R48), 64 bits in all. -/
structure DescFields where
  base   : Word
  lim20  : BitVec 20
  access : Byte
  fn     : BitVec 4
  deriving DecidableEq, Repr

/-- A sub-field `v` with its lowest bit at bit `pos` of the descriptor. -/
def place {w : Nat} (pos : Nat) (v : BitVec w) : Descriptor := v.setWidth 64 <<< pos

/-- `pack` (R70): each sub-field at the position rule R48 gives it. -/
def pack (base : Word) (lim20 : BitVec 20) (access : Byte) (fn : BitVec 4) : Descriptor :=
  place Layout.limitLowPos (lim20.extractLsb' 0 16) |||
  place Layout.baseLowPos (base.extractLsb' 0 16) |||
  place Layout.baseMidPos (base.extractLsb' 16 8) |||
  place Layout.accessPos access |||
  place Layout.limitHighPos (lim20.extractLsb' 16 4) |||
  place Layout.flagsPos fn |||
  place Layout.baseHighPos (base.extractLsb' 24 8)

/-- `unpack` (R71): the bit-splitting reversed. -/
def unpack (d : Descriptor) : DescFields where
  base   := d.extractLsb' Layout.baseHighPos 8 ++ d.extractLsb' Layout.baseMidPos 8 ++
              d.extractLsb' Layout.baseLowPos 16
  lim20  := d.extractLsb' Layout.limitHighPos 4 ++ d.extractLsb' Layout.limitLowPos 16
  access := d.extractLsb' Layout.accessPos 8
  fn     := d.extractLsb' Layout.flagsPos 4

/-- `flags_in` (R72): the significant nibble of the `flags` operand. -/
def flagsIn (align : FlagsAlign) (flags : Byte) : BitVec 4 :=
  match align with
  | .low  => flags.extractLsb' 0 4
  | .high => flags.extractLsb' 4 4

/-- `flags_out` (R73): the nibble put back in an 8-bit value, the other four bits zero. -/
def flagsOut (align : FlagsAlign) (fn : BitVec 4) : Byte :=
  match align with
  | .low  => 0#4 ++ fn
  | .high => fn ++ 0#4

/-- The largest representable limit (R50, R74). -/
def maxLimit : Nat := 0xFFFFF

/-- A limit above `0xFFFFF` under `LIMIT_POLICY = REJECT` (R74): the one operand value `ENCODE` refuses (R66). Under
`TRUNCATE` nothing is refused. -/
def limitRejected (cfg : Config) (limit : Word) : Bool :=
  decide (maxLimit < limit.toNat) && decide (cfg.limitPolicy = .reject)

/-- `limit[19:0]` (R74): the low 20 bits. -/
def limit20 (limit : Word) : BitVec 20 := limit.extractLsb' 0 20

/-! ### The access byte (R51, R53) and the flags nibble (R52) -/

/-- `P`, present. -/
def accessPresent (a : Byte) : BitVec 1 := a.extractLsb' Layout.presentPos 1
/-- `DPL`. -/
def accessDpl (a : Byte) : BitVec 2 := a.extractLsb' Layout.dplPos 2
/-- `S`: 1 a code or data segment, 0 a system descriptor. -/
def accessS (a : Byte) : BitVec 1 := a.extractLsb' Layout.systemPos 1
/-- `TYPE`. -/
def accessType (a : Byte) : BitVec 4 := a.extractLsb' Layout.typePos 4

/-- The type of a code or data segment from its four attributes (R51). -/
def segmentType (e dc rw a : BitVec 1) : BitVec 4 :=
  e.setWidth 4 <<< Layout.execPos ||| dc.setWidth 4 <<< Layout.dirConfPos |||
    rw.setWidth 4 <<< Layout.readWritePos ||| a.setWidth 4 <<< Layout.accessedPos

/-- The access byte from its fields (R51). -/
def accessByte (p : BitVec 1) (dpl : BitVec 2) (s : BitVec 1) (type : BitVec 4) : Byte :=
  p.setWidth 8 <<< Layout.presentPos ||| dpl.setWidth 8 <<< Layout.dplPos |||
    s.setWidth 8 <<< Layout.systemPos ||| type.setWidth 8 <<< Layout.typePos

/-- `G`, granularity. -/
def fnGranularity (fn : BitVec 4) : BitVec 1 := fn.extractLsb' Layout.granularityPos 1
/-- `DB`, default operand size. -/
def fnOperandSize (fn : BitVec 4) : BitVec 1 := fn.extractLsb' Layout.operandSizePos 1
/-- `L`. -/
def fnLong (fn : BitVec 4) : BitVec 1 := fn.extractLsb' Layout.longPos 1
/-- `AVL`. -/
def fnAvailable (fn : BitVec 4) : BitVec 1 := fn.extractLsb' Layout.availablePos 1

/-- The flags nibble from its bits (R52). -/
def flagsNibble (g db l avl : BitVec 1) : BitVec 4 :=
  g.setWidth 4 <<< Layout.granularityPos ||| db.setWidth 4 <<< Layout.operandSizePos |||
    l.setWidth 4 <<< Layout.longPos ||| avl.setWidth 4 <<< Layout.availablePos

/-- Kernel code: present, ring 0, code segment, readable (R53). -/
def kernelCodeAccess : Byte := accessByte 1 0 1 (segmentType 1 0 1 0)
/-- Kernel data: present, ring 0, data segment, writable (R53). -/
def kernelDataAccess : Byte := accessByte 1 0 1 (segmentType 0 0 1 0)
/-- User code: present, ring 3, code segment, readable (R53). -/
def userCodeAccess : Byte := accessByte 1 3 1 (segmentType 1 0 1 0)
/-- User data: present, ring 3, data segment, writable (R53). -/
def userDataAccess : Byte := accessByte 1 3 1 (segmentType 0 0 1 0)
/-- TSS: present, ring 3, system type 9 (R53, R54). -/
def tssAccess : Byte := accessByte 1 3 0 Layout.typeAvailableTss

/-- The flags of the four flat segments: 4 KiB granularity, 32-bit (R83). -/
def flatFlags : BitVec 4 := flagsNibble 1 1 0 0
/-- The flags of the TSS descriptor: byte granularity and nothing else (R92). -/
def tssFlags : BitVec 4 := flagsNibble 0 0 0 0

/-! ### The addressable range of a descriptor (R78): a function for tests, never evaluated by the unit -/

/-- The unit by which the limit field scales: 4096 when `G = 1`, else 1 (R78). -/
def limitUnit (fn : BitVec 4) : Nat := if fnGranularity fn = 1 then 4096 else 1

/-- `span` (R78): first and last address, on unbounded naturals. -/
def span (d : Descriptor) : Nat × Nat :=
  let f := unpack d
  (f.base.toNat, f.base.toNat + (f.lim20.toNat + 1) * limitUnit f.fn - 1)

/-! ### Selectors (R57, R89, R102) -/

/-- `index << 3 | rpl` on 16 bits (R89). -/
def selectorOf (index : BitVec 13) (rpl : BitVec 2) : SelectorWord :=
  (index.setWidth 16 <<< Layout.selectorIndexPos) ||| rpl.setWidth 16

/-- The TSS selector (R102): `IDX_TSS * 8 | 0`. -/
def tssSelector (cfg : Config) : SelectorWord := selectorOf (BitVec.ofNat 13 cfg.idxTss) 0

/-! ### The descriptor pointer (R56, R100) -/

/-- The 48-bit pointer with its two fields in place (R56). -/
def pointerOf (size : BitVec 16) (address : Word) : PointerWord :=
  size.setWidth 48 <<< Layout.pointerSizePos ||| address.setWidth 48 <<< Layout.pointerAddressPos

/-- `PTR.size` (R18). -/
def pointerSize (p : PointerWord) : BitVec 16 := p.extractLsb' Layout.pointerSizePos 16

/-- `PTR.address` (R18). -/
def pointerAddress (p : PointerWord) : Word := p.extractLsb' Layout.pointerAddressPos 32

/-- `make_pointer` (R100): the table's length in bytes minus one, and its address. -/
def makePointer (cfg : Config) : PointerWord :=
  pointerOf (BitVec.ofNat 16 (8 * cfg.gdtEntries - 1)) cfg.tableAddr

/-! ### The TSS descriptor's fields (R92) -/

/-- What `tss_descriptor` computes: the limit still at 32 bits. -/
structure TssFields where
  base   : Word
  limit  : Word
  access : Byte
  fn     : BitVec 4
  deriving DecidableEq, Repr

/-- `tss_descriptor` (R92): base the address, limit the size minus one (R97), evaluated only when the size is at least 1. -/
def tssFields (address size : Word) : TssFields where
  base   := address
  limit  := size - 1
  access := tssAccess
  fn     := tssFlags

/-- The 64-bit TSS descriptor that an install stores (R94). -/
def tssDescriptor (address size : Word) : Descriptor :=
  let f := tssFields address size
  pack f.base (limit20 f.limit) f.access f.fn

/-! ### The effective address of an entry store (R47) -/

/-- `ea = TABLE_ADDR + 8 * i`, on naturals: it does not wrap (R11 (d), R47). -/
def entryAddress (cfg : Config) (i : Nat) : Nat := cfg.tableAddr.toNat + 8 * i

end Sys2Proof.Machine
end

