-- ==== Sys2Proof/Machine/Ops.lean ====
section
/-! DEFINITION. The operations every command shares: reading and writing memory (rules R33, R35, R38 to R40, R47), the
updates of the state, the Load Boundary call (R103), an error of a pure command (R122), taking a fault (R123), the
refusal of a halted unit (R124), a reserved code (R65), and reset (R137, R138). -/

namespace Sys2Proof.Machine

open Sys2Proof

/-! ### Memory -/

/-- What an address that is not listed reads as: no value (R31, log 4). -/
def Memory.unlisted : Option Byte := none

/-- The byte at a linear address, if it has a value. A read has no side effect (R40). -/
def Memory.read : Memory → Nat → Option Byte
  | [], _ => Memory.unlisted
  | (a', b) :: m, a => if a' = a then some b else Memory.read m a

/-- The memory with byte `b` at address `a`, every other byte as before (R40). -/
def Memory.write : Memory → Nat → Byte → Memory
  | [], a, b => [(a, b)]
  | (a', b') :: m, a, b =>
    if a < a' then (a, b) :: (a', b') :: m
    else if a = a' then (a, b) :: m
    else (a', b') :: Memory.write m a b

/-- The `n` bytes at `a` and up, if each has a value. -/
def Memory.readBytes (m : Memory) : Nat → Nat → Option (List Byte)
  | _, 0 => some []
  | a, n + 1 =>
    match m.read a, Memory.readBytes m (a + 1) n with
    | some b, some bs => some (b :: bs)
    | _, _ => none

/-- `MemRead(addr, 8)` (R10). -/
def Memory.read64 (m : Memory) (a : Nat) : Option Descriptor :=
  (m.readBytes a 8).map fun bs => BitVec.ofNat 64 (leNat bs)

/-- `MemRead(addr, 4)` (R10, R36). -/
def Memory.read32 (m : Memory) (a : Nat) : Option Word :=
  (m.readBytes a 4).map fun bs => BitVec.ofNat 32 (leNat bs)

/-- Bytes stored one by one in ascending address order, the first at `a` (R39). `none` if an address is not in the
32-bit space (R33). -/
def Memory.storeBytes : Memory → Nat → List Byte → Option Memory
  | m, _, [] => some m
  | m, a, b :: bs => if a < addressSpace then Memory.storeBytes (m.write a b) (a + 1) bs else none

/-- `MemWrite(addr, 8, v)` (R10, R39): eight byte stores, least significant byte at `addr` (R35). -/
def Memory.write64 (m : Memory) (a : Nat) (v : Descriptor) : Option Memory :=
  m.storeBytes a (bytesLE 8 v.toNat)

/-- `GDT[i] <- v` (R10, R47, R93): the one kind of store the unit makes. -/
def storeEntry (cfg : Config) (i : Nat) (v : Descriptor) (m : Memory) : Option Memory :=
  m.write64 (entryAddress cfg i) v

/-- `GDT[i] <- v` for each descriptor of a list, at index `i` and up, in ascending order (R38). -/
def storeEntries (cfg : Config) : Nat → List Descriptor → Memory → Option Memory
  | _, [], m => some m
  | i, v :: vs, m =>
    match storeEntry cfg i v m with
    | none => none
    | some m' => storeEntries cfg (i + 1) vs m'

/-! ### Updates of the state -/

/-- The memory after the stores of a command. -/
def State.setMem (s : State) (m : Memory) : State := { s with mem := m }

/-- `PTR <- p`. -/
def State.setPtr (s : State) (p : PointerWord) : State := { s with ptr := p }

/-- `PHASE <- p`. -/
def State.setPhase (s : State) (p : Phase) : State := { s with phase := p }

/-- `emit e` (R10, R19): one call across the Load Boundary. It returns at once and changes no other state (R103). -/
def State.emit (s : State) (e : Event) : State := { s with ev := s.ev ++ [e] }

/-- The output ports after a command: written ports hold their values, the others none (R13, R61). -/
def State.setOut (s : State) (o : Outputs) : State := { s with out := o }

/-- `FAULT <- 1; CAUSE <- c` and nothing else (R123). -/
def State.takeFault (s : State) (c : ConfigError) : State := { s with fault := true, cause := .error c }

/-! ### How a command ends -/

/-- What a command gives: its result code and the state it leaves, the output ports not yet written. -/
abbrev Result := Status × State

/-- A step of a sequenced command: a result, or the machine stops. -/
abbrev SeqStep := Host.Outcome Result Fault Refusal

/-- The command returns `Ok`. -/
def succeed (s : State) : SeqStep := .next (.ok, s)

/-- `raise ConfigError(c)` (R123): taking a fault, the one exception of the unit. `FAULT` and `CAUSE` are written, the
command ends with status `c`, and nothing else happens: no handler, no vector, no saved state. There is no return from
it (R127); only reset clears it (`applyReset`). -/
def raiseConfigError (c : ConfigError) (s : State) : SeqStep := .next (.error c, s.takeFault c)

/-- `return Err(Halted)` (R124): a sequenced command on a faulted unit changes nothing. -/
def refuseHalted (s : State) : SeqStep := .next (.halted, s)

/-- The end of a sequenced command: `status` is written, no other result port is (R61). -/
def complete (r : SeqStep) : Host.Outcome State Fault Refusal :=
  match r with
  | .next (c, s) => .next (s.setOut (.ofStatus c))
  | .fault f => .fault f
  | .refused f => .refused f

/-- `return Err(c)` of a pure command (R122): `status` is written and nothing else changes. -/
def returnErr (c : ConfigError) (s : State) : State := s.setOut (.ofStatus (.error c))

/-- A reserved operation code (R65): `status = ReservedOp`, and nothing else changes. -/
def execReserved (s : State) : State := s.setOut (.ofStatus .reservedOp)

/-- What the unit does with a command the decoder rejects. -/
def reject (r : Reject) (s : State) : State :=
  match r with
  | .reservedOp _ => execReserved s

/-- The harness's next command taken from the input ports (R143): the commands after it stay. -/
def State.setInput (s : State) (ps : List Ports) : State := { s with input := ps }

/-! ### Reset -/

/-- Reset (R137, R138): every register at the value rule R31 gives, memory as it was. `PTR` is unspecified after reset: it
is the argument `p`, so that a statement holds for every value (log 13). The configuration is constant; no command is
issued across a reset. -/
def applyReset (p : PointerWord) (s : State) : State :=
  { s with phase := .unloaded, fault := false, cause := .none, ptr := p, ev := [], out := {}, input := [] }

end Sys2Proof.Machine
end

