-- ==== Sys2Proof/Machine/Encoder.lean ====
section
/-! DEFINITION. The Descriptor Encoder's commands (file `40_descriptor_encoder.md`): `ENCODE` (rule R74) and `DECODE` (rule
R75). Pure: they read their operands and the configuration and write the output ports, in any `PHASE` and whatever
`FAULT` is (R79). -/

namespace Sys2Proof.Machine

open Sys2Proof

/-- What `ENCODE` puts on `desc_out` (R74). -/
def encodeResult (cfg : Config) (base limit : Word) (access flags : Byte) : Descriptor :=
  pack base (limit20 limit) access (flagsIn cfg.flagsAlign flags)

/-- `ENCODE` (R74). -/
def execEncode (base limit : Word) (access flags : Byte) (s : State) : Host.Outcome State Fault Refusal :=
  if limitRejected s.cfg limit then .next (returnErr .limitOverflow s)
  else .next (s.setOut (.encoded (encodeResult s.cfg base limit access flags)))

/-- What `DECODE` puts on its four result ports (R75): the limit zero-extended, the flags placed by `FLAGS_ALIGN`. -/
def decodeResult (cfg : Config) (d : Descriptor) : Outputs :=
  let f := unpack d
  .decoded f.base (f.lim20.setWidth 32) f.access (flagsOut cfg.flagsAlign f.fn)

/-- `DECODE` (R75). -/
def execDecode (d : Descriptor) (s : State) : Host.Outcome State Fault Refusal :=
  .next (s.setOut (decodeResult s.cfg d))

end Sys2Proof.Machine
end

