-- ==== Sys2Proof/Machine/Installer.lean ====
section
/-! DEFINITION. The TSS Installer (file `42_tss_installer.md`): `INSTALL_TSS` (rule R94). -/

namespace Sys2Proof.Machine

open Sys2Proof

/-- The phases in which an install is admitted (R94, R112). -/
def admitsInstall (p : Phase) : Bool := decide (p = .tableLoaded) || decide (p = .tssInstalled)

/-- An index the installer refuses (R94): the null entry, or outside the table. -/
def indexRefused (cfg : Config) (i : Nat) : Bool := decide (i = 0) || decide (cfg.gdtEntries ≤ i)

/-- The install at index `i` of a TSS of size `size` at `address` (R94), the checks in the order of rule R125, each before
the store. `INSTALL_TSS` runs it with its operand as index, `INIT` with `IDX_TSS`. -/
def installTssOp (i : Nat) (address size : Word) (s : State) : SeqStep :=
  if s.fault then refuseHalted s
  else if !admitsInstall s.phase then raiseConfigError .orderViolation s
  else if indexRefused s.cfg i then raiseConfigError .indexOutOfRange s
  else if size = 0 then raiseConfigError .badTssSize s
  else if limitRejected s.cfg (tssFields address size).limit then raiseConfigError .limitOverflow s
  else
    match storeEntry s.cfg i (tssDescriptor address size) s.mem with
    | none => .fault .addressOutsideSpace
    | some m => succeed ((s.setMem m).setPhase .tssInstalled)

/-- `INSTALL_TSS` (R94). -/
def execInstallTss (tssIndex : BitVec 13) (address size : Word) (s : State) : Host.Outcome State Fault Refusal :=
  complete (installTssOp tssIndex.toNat address size s)

end Sys2Proof.Machine
end

