-- ==== Sys2Proof/Machine/Table.lean ====
section
/-! DEFINITION. The Table Builder (file `41_table_builder.md`): `build_table` (rules R81 to R87) and the pure command
`SELECTOR` (rule R89). -/

namespace Sys2Proof.Machine

open Sys2Proof

/-- A flat segment of the given access byte: base 0, limit `0xFFFFF`, 4 KiB granularity, 32-bit (R83 to R86). -/
def flatDescriptor (access : Byte) : Descriptor := pack 0 0xFFFFF access flatFlags

/-- Entry `i` of the table (R81): null (R82), kernel code (R83), kernel data (R84), user code (R85), user data (R86); the
TSS placeholder (R87) and every index not named are 0. Index 0 is null whatever the configuration says (R82). -/
def tableEntry (cfg : Config) (i : Nat) : Descriptor :=
  if i = idxNull then 0
  else if i = cfg.idxKcode then flatDescriptor kernelCodeAccess
  else if i = cfg.idxKdata then flatDescriptor kernelDataAccess
  else if i = cfg.idxUcode then flatDescriptor userCodeAccess
  else if i = cfg.idxUdata then flatDescriptor userDataAccess
  else 0

/-- `build_table` (R81): `GDT_ENTRIES` descriptors, a constant function of the configuration. -/
def buildTable (cfg : Config) : List Descriptor := (List.range cfg.gdtEntries).map (tableEntry cfg)

/-- `SELECTOR` (R89): pure, no check of the index against `GDT_ENTRIES`. -/
def execSelector (index : BitVec 13) (rpl : BitVec 2) (s : State) : Host.Outcome State Fault Refusal :=
  .next (s.setOut (.selected (selectorOf index rpl)))

end Sys2Proof.Machine
end

