-- ==== Sys2Proof/Machine/LoadBoundary.lean ====
section
/-! DEFINITION. The Load Boundary's commands (file `43_pointer_and_load_boundary.md`): `TABLE_LOAD` (rule R106) and
`TR_LOAD` (rule R107). -/

namespace Sys2Proof.Machine

open Sys2Proof

/-- The state after a successful `TABLE_LOAD` whose stores leave memory `m`, in the order of rule R106: the table, `PTR`,
the event with a copy of `PTR` (R104), `PHASE`. -/
def afterTableLoad (s : State) (m : Memory) : State :=
  let s' := (s.setMem m).setPtr (makePointer s.cfg)
  (s'.emit (.loadDescriptorTable s'.ptr)).setPhase .tableLoaded

/-- The table load (R106). `TABLE_LOAD` runs it, and `INIT` as its first step. -/
def tableLoadOp (s : State) : SeqStep :=
  if s.fault then refuseHalted s
  else if s.phase ≠ .unloaded then raiseConfigError .orderViolation s
  else
    match storeEntries s.cfg 0 (buildTable s.cfg) s.mem with
    | none => .fault .addressOutsideSpace
    | some m => succeed (afterTableLoad s m)

/-- `TABLE_LOAD` (R106). -/
def execTableLoad (s : State) : Host.Outcome State Fault Refusal := complete (tableLoadOp s)

/-- The task-register load (R107): the selector is always formed from `IDX_TSS` (R102, D33). `TR_LOAD` runs it, and `INIT`
as its third step. -/
def trLoadOp (s : State) : SeqStep :=
  if s.fault then refuseHalted s
  else if s.phase ≠ .tssInstalled then raiseConfigError .orderViolation s
  else succeed ((s.emit (.loadTaskRegister (tssSelector s.cfg))).setPhase .taskRegisterLoaded)

/-- `TR_LOAD` (R107). -/
def execTrLoad (s : State) : Host.Outcome State Fault Refusal := complete (trLoadOp s)

end Sys2Proof.Machine
end

