-- ==== Sys2Proof/Machine/Init.lean ====
section
/-! DEFINITION. The initialisation sequence (file `44_init_sequence.md`): `INIT` (rule R113), the one pseudo-operation
(rule R69). -/

namespace Sys2Proof.Machine

open Sys2Proof

/-- `INIT` (R113): the table load, the install at `IDX_TSS`, the task-register load. When the install step fails, its
result is the result of `INIT` and the effects of the first step stay (D26). -/
def initOp (address size : Word) (s : State) : SeqStep :=
  if s.fault then refuseHalted s
  else if s.phase ≠ .unloaded then raiseConfigError .orderViolation s
  else
    match tableLoadOp s with
    | .next (_, s1) =>
      match installTssOp s.cfg.idxTss address size s1 with
      | .next (.ok, s2) => trLoadOp s2
      | r => r
    | r => r

/-- `INIT` (R113). -/
def execInit (address size : Word) (s : State) : Host.Outcome State Fault Refusal := complete (initOp address size s)

end Sys2Proof.Machine
end

