-- ==== Sys2Proof/Machine/Dispatch.lean ====
section
/-! DEFINITION. The meaning of every command: one arm per row of spec/opcode_table.json. -/

namespace Sys2Proof.Machine

open Sys2Proof

def exec (i : Instr) (s : State) : Host.Outcome State Fault Refusal :=
  match i with
  | .encode base limit access flags => Sys2Proof.Machine.execEncode base limit access flags s
  | .decode descIn => Sys2Proof.Machine.execDecode descIn s
  | .selector index rpl => Sys2Proof.Machine.execSelector index rpl s
  | .tableLoad => Sys2Proof.Machine.execTableLoad s
  | .installTss tssIndex tssAddress tssSize => Sys2Proof.Machine.execInstallTss tssIndex tssAddress tssSize s
  | .trLoad => Sys2Proof.Machine.execTrLoad s
  | .init tssAddress tssSize => Sys2Proof.Machine.execInit tssAddress tssSize s

end Sys2Proof.Machine
end

