-- ==== Sys2Proof/Machine/Step.lean ====
section
/-! DEFINITION. One step: the unit takes the command the harness has issued and runs it to completion (rules R41, R152).
With no command issued it does nothing (rule R139). -/

namespace Sys2Proof.Machine

open Sys2Proof

/-- One step of the unit (R41, R59, R64, R139). -/
def step (s : State) : Host.Outcome State Fault Refusal :=
  match s.input with
  | [] => .next s
  | p :: rest =>
    match decodePorts p with
    | .ok i => exec i (s.setInput rest)
    | .error r => .next (reject r (s.setInput rest))

/-- `s` with the opcode table's word `w` issued next: its port values stand before the commands still to be issued, and
nothing else changes (log 5). -/
def State.withFetchWord (s : State) (nbits w : Nat) : State :=
  s.setInput (Ports.ofTableWord nbits w :: s.input)

end Sys2Proof.Machine
end

