-- ==== Sys2Proof/Machine/TssRecord.lean ====
section
/-! DEFINITION. The TSS Record (rules R27, R28, R142, R148): a region of memory outside the unit's own state, which no
command reads or writes (R29). Its layout is the general-knowledge one of rule R28, PRESUMED (log 15): no meaning uses
it, and it is here so that a claim can name a field of the record. -/

namespace Sys2Proof.Machine

open Sys2Proof

/-- The fields of the architectural 32-bit TSS (R28), in order of offset. -/
inductive TssField where
  | link | esp0 | ss0 | esp1 | ss1 | esp2 | ss2 | cr3 | eip | eflags
  | eax | ecx | edx | ebx | esp | ebp | esi | edi
  | es | cs | ss | ds | fs | gs | ldt | trap | ioMapBase
  deriving DecidableEq, Repr

/-- The byte offset of a field in the record (R28). -/
def TssField.offset : TssField → Nat
  | .link => 0x00 | .esp0 => 0x04 | .ss0 => 0x08 | .esp1 => 0x0C | .ss1 => 0x10 | .esp2 => 0x14 | .ss2 => 0x18
  | .cr3 => 0x1C | .eip => 0x20 | .eflags => 0x24
  | .eax => 0x28 | .ecx => 0x2C | .edx => 0x30 | .ebx => 0x34
  | .esp => 0x38 | .ebp => 0x3C | .esi => 0x40 | .edi => 0x44
  | .es => 0x48 | .cs => 0x4C | .ss => 0x50 | .ds => 0x54 | .fs => 0x58 | .gs => 0x5C
  | .ldt => 0x60 | .trap => 0x64 | .ioMapBase => 0x66

/-- The width of a field in bytes (R28): 2 for a selector, the trap word and the I/O map base, else 4. -/
def TssField.bytes : TssField → Nat
  | .link | .ss0 | .ss1 | .ss2 | .es | .cs | .ss | .ds | .fs | .gs | .ldt | .trap | .ioMapBase => 2
  | .esp0 | .esp1 | .esp2 | .cr3 | .eip | .eflags | .eax | .ecx | .edx | .ebx | .esp | .ebp | .esi | .edi => 4

/-- The fields in order of offset. -/
def TssField.all : List TssField :=
  [.link, .esp0, .ss0, .esp1, .ss1, .esp2, .ss2, .cr3, .eip, .eflags] ++
  [.eax, .ecx, .edx, .ebx, .esp, .ebp, .esi, .edi] ++
  [.es, .cs, .ss, .ds, .fs, .gs, .ldt, .trap, .ioMapBase]

/-- The reserved bytes after a field (R28): the high half of the 4-byte slot of each 16-bit selector field. -/
def TssField.reserved : TssField → Nat
  | .link | .ss0 | .ss1 | .ss2 | .es | .cs | .ss | .ds | .fs | .gs | .ldt => 2
  | .esp0 | .esp1 | .esp2 | .cr3 | .eip | .eflags | .eax | .ecx | .edx | .ebx | .esp | .ebp | .esi | .edi => 0
  | .trap | .ioMapBase => 0

/-- The bytes of a field with the reserved ones after it (R28). -/
def TssField.slot (f : TssField) : Nat := f.bytes + f.reserved

/-- The trap flag: bit 0 of the word at 0x64 (R28). -/
def trapFlagOf (w : BitVec 16) : BitVec 1 := w.extractLsb' 0 1

/-- The reserved bits 15:1 of the word at 0x64 (R28). -/
def trapReservedOf (w : BitVec 16) : BitVec 15 := w.extractLsb' 1 15

/-- The size of the architectural record (R7, R28): 104 bytes. -/
def tssRecordSize : Nat := 104

/-- The linear address of a field of the configured record. -/
def TssField.address (cfg : Config) (f : TssField) : Nat := cfg.tssAddr.toNat + f.offset

/-- The value of a field of the configured record, if each of its bytes has a value. -/
def TssField.read (s : State) (f : TssField) : Option Nat :=
  (s.mem.readBytes (f.address s.cfg) f.bytes).map leNat

/-- The reserved high half of a field's slot (R28), 0 where the field has none. -/
def TssField.readReserved (s : State) (f : TssField) : Option Nat :=
  (s.mem.readBytes (f.address s.cfg + f.bytes) f.reserved).map leNat

/-- The trap flag of the configured record (R27, R28). -/
def State.tssTrapFlag (s : State) : Option (BitVec 1) :=
  (TssField.trap.read s).map fun w => trapFlagOf (BitVec.ofNat 16 w)

/-- The reserved bits beside the trap flag (R28). -/
def State.tssTrapReserved (s : State) : Option (BitVec 15) :=
  (TssField.trap.read s).map fun w => trapReservedOf (BitVec.ofNat 16 w)

end Sys2Proof.Machine
end

