-- ==== Sys2Proof/Machine/Views.lean ====
section
/-! DEFINITION. What the agents outside the unit see of its state: the harness reads a table entry (rules R21, R143), the
processor holds the address of the table it was handed and fetches descriptors from memory (rules R30, R44). They are
functions over State; no meaning uses them. -/

namespace Sys2Proof.Machine

open Sys2Proof

/-- `MemRead` of table entry `i`, as the harness makes it before a `DECODE` (R21). -/
def State.entry (s : State) (i : Nat) : Option Descriptor := s.mem.read64 (entryAddress s.cfg i)

/-- The table as the harness reads it, entry 0 first (R21): an entry with a byte that has no value reads as none. -/
def State.table (s : State) : List (Option Descriptor) := (List.range s.cfg.gdtEntries).map s.entry

/-- `patch(T, i, d)` (R93): the table with entry `i` replaced and every other entry unchanged. -/
def patch (table : List (Option Descriptor)) (i : Nat) (d : Descriptor) : List (Option Descriptor) :=
  table.set i (some d)

/-- The selector constants (R90): for each entry of the configuration its index and its selectors at level 0 and level 3. -/
def selectorConstants (cfg : Config) : List (Nat × SelectorWord × SelectorWord) :=
  [idxNull, cfg.idxKcode, cfg.idxKdata, cfg.idxUcode, cfg.idxUdata, cfg.idxTss].map fun i =>
    (i, selectorOf (BitVec.ofNat 13 i) 0, selectorOf (BitVec.ofNat 13 i) 3)

/-- The 6 bytes of a pointer as the table-load primitive takes them (R56, R104). -/
def pointerBytes (p : PointerWord) : List Byte := bytesLE 6 p.toNat

/-- The processor's cached copy of the table's address and size (R30): the argument of the last table load in the trace. The
trace is that of one run, from reset on. DESIGN CHOICE (log 22): as reset empties the trace, the view gives none after a
reset, and a second table load replaces the copy. What the processor holds across a reset or a second load is outside the
spec (R31, R138, U14). -/
def cachedPointer : List Event → Option PointerWord
  | [] => none
  | .loadDescriptorTable p :: es =>
    match cachedPointer es with
    | some q => some q
    | none => some p
  | .loadTaskRegister _ :: es => cachedPointer es

/-- A descriptor fetch by the processor (R44): the 8 bytes in memory, at the cached address, of the entry the selector's
index names. DEDUCED from R30, R44 and R57 (log 10). The processor's limit and privilege checks are not specified (R46).
DESIGN CHOICE (log 23): bit 2 of the selector is ignored, though the spec gives no meaning to a selector with it 1 (R57,
N17); and the null selector reads the bytes of entry 0 like any other, though R22 says that entry is never dereferenced and
U13 leaves its loading unsaid. -/
def fetchDescriptor (s : State) (sel : SelectorWord) : Option Descriptor :=
  match cachedPointer s.ev with
  | none => none
  | some p => s.mem.read64 ((pointerAddress p).toNat + 8 * (sel.extractLsb' Layout.selectorIndexPos 13).toNat)

end Sys2Proof.Machine
end

