-- ==== Sys2Proof/Safety.lean ====
section
/-! DEFINITION. The terms claims are stated in: the regions of memory, runs of commands, the transition table (rule R112)
and the tables of codes (rules R121, R125) written independently of the meanings, the ends of a run (rule R117), and the
invariant every step keeps. -/

namespace Sys2Proof.Machine

open Sys2Proof

/-! ### Regions (R21, R34) -/

/-- `a` is an address of the table region. -/
abbrev inTable (cfg : Config) (a : Nat) : Prop :=
  cfg.tableAddr.toNat ≤ a ∧ a < cfg.tableAddr.toNat + 8 * cfg.gdtEntries

/-- `a` is an address of the TSS Record region. -/
abbrev inTssRecord (cfg : Config) (a : Nat) : Prop :=
  cfg.tssAddr.toNat ≤ a ∧ a < cfg.tssAddr.toNat + cfg.tssSize.toNat

/-! ### Runs -/

/-- The harness is about to issue `is`, one after the other, and nothing else. -/
def issue (is : List Instr) (s : State) : State := { s with input := is.map encodePorts }

/-- The commands `is` issued in order from `s`, one step each. -/
def runCommands (is : List Instr) (s : State) : Host.Outcome State Fault Refusal :=
  Sys2Proof.core.run is.length (issue is s)

/-- The next state of an outcome, if it is one. -/
def nextState (o : Host.Outcome State Fault Refusal) : Option State :=
  match o with
  | .next s => some s
  | .fault _ => none
  | .refused _ => none

/-! ### The state machine (R112) -/

/-- The transition table: the phase a sequenced command leads to from a phase, `none` where it is an order violation. A pure
command is not in the table and changes nothing. -/
def transition (i : Instr) (p : Phase) : Option Phase :=
  match i with
  | .tableLoad        => if p = .unloaded then some .tableLoaded else none
  | .installTss _ _ _ => if p = .tableLoaded ∨ p = .tssInstalled then some .tssInstalled else none
  | .trLoad           => if p = .tssInstalled then some .taskRegisterLoaded else none
  | .init _ _         => if p = .unloaded then some .taskRegisterLoaded else none
  | .encode _ _ _ _   => some p
  | .decode _         => some p
  | .selector _ _     => some p

/-! ### Codes (R121, R125) -/

/-- Rule R121's table, with `Ok`: the codes the command of operation code `op` can give. -/
def mayGive (op : BitVec 4) (c : Status) : Bool :=
  match op.toNat, c with
  | 1, .ok | 1, .error .limitOverflow => true
  | 2, .ok => true
  | 3, .ok => true
  | 4, .ok | 4, .error .orderViolation | 4, .halted => true
  | 5, .ok | 5, .error .limitOverflow | 5, .error .orderViolation | 5, .error .indexOutOfRange
  | 5, .error .badTssSize | 5, .halted => true
  | 6, .ok | 6, .error .orderViolation | 6, .halted => true
  | 7, .ok | 7, .error .limitOverflow | 7, .error .orderViolation | 7, .error .badTssSize | 7, .halted => true
  | _, _ => false

/-- The phase does not admit the command (R112). -/
def phaseRefused (i : Instr) (p : Phase) : Bool := (transition i p).isNone

/-- The index operand is refused (R94, R67): only `INSTALL_TSS` has one. -/
def indexOperandRefused (cfg : Config) : Instr → Bool
  | .installTss k _ _ => decide (k.toNat = 0 ∨ cfg.gdtEntries ≤ k.toNat)
  | .encode _ _ _ _   => false
  | .decode _         => false
  | .selector _ _     => false
  | .tableLoad        => false
  | .trLoad           => false
  | .init _ _         => false

/-- The TSS size operand is zero (R94, R67): `INSTALL_TSS` and `INIT` have one. -/
def sizeOperandZero : Instr → Bool
  | .installTss _ _ n => decide (n.toNat = 0)
  | .init _ n         => decide (n.toNat = 0)
  | .encode _ _ _ _   => false
  | .decode _         => false
  | .selector _ _     => false
  | .tableLoad        => false
  | .trLoad           => false

/-- The limit the command hands to the encoder is above `0xFFFFF` and the policy rejects it (R67, R74, R94). -/
def limitOperandRefused (cfg : Config) : Instr → Bool
  | .encode _ l _ _   => decide (0xFFFFF < l.toNat ∧ cfg.limitPolicy = .reject)
  | .installTss _ _ n => decide (0xFFFFF < n.toNat - 1 ∧ cfg.limitPolicy = .reject)
  | .init _ n         => decide (0xFFFFF < n.toNat - 1 ∧ cfg.limitPolicy = .reject)
  | .decode _         => false
  | .selector _ _     => false
  | .tableLoad        => false
  | .trLoad           => false

/-- The error of a TSS of `size` bytes (R94, R113): a zero size, or a limit the encoder rejects. -/
def sizeError (cfg : Config) (size : Nat) : Option ConfigError :=
  if size = 0 then some .badTssSize
  else if 0xFFFFF < size - 1 ∧ cfg.limitPolicy = .reject then some .limitOverflow
  else none

/-- The first check of R94 that fails for an install at index `k` of a TSS of `size` bytes, in the rule's order. -/
def installError (s : State) (k size : Nat) : Option ConfigError :=
  if s.phase ≠ .tableLoaded ∧ s.phase ≠ .tssInstalled then some .orderViolation
  else if k = 0 ∨ s.cfg.gdtEntries ≤ k then some .indexOutOfRange
  else sizeError s.cfg size

/-- The one code a command reports, by the order of checks of rule R125: the operation code, `FAULT`, `PHASE`, the index,
the zero size, the limit. -/
def expectedStatus (p : Ports) (s : State) : Status :=
  match decodePorts p with
  | .error _ => .reservedOp
  | .ok i =>
    if i.isSequenced && s.fault then .halted
    else if phaseRefused i s.phase then .error .orderViolation
    else if indexOperandRefused s.cfg i then .error .indexOutOfRange
    else if sizeOperandZero i then .error .badTssSize
    else if limitOperandRefused s.cfg i then .error .limitOverflow
    else .ok

/-! ### The ends of a run (R117) -/

/-- The run has ended well. -/
abbrev State.endedWell (s : State) : Prop := s.phase = .taskRegisterLoaded ∧ s.fault = false

/-- The run has ended badly. -/
abbrev State.endedBadly (s : State) : Prop := s.fault = true

/-! ### The invariant -/

/-- The trace a phase goes with (R19, R108, R117). -/
def eventsOf (cfg : Config) : Phase → List Event
  | .unloaded           => []
  | .tableLoaded        => [.loadDescriptorTable (makePointer cfg)]
  | .tssInstalled       => [.loadDescriptorTable (makePointer cfg)]
  | .taskRegisterLoaded => [.loadDescriptorTable (makePointer cfg), .loadTaskRegister (tssSelector cfg)]

/-- What holds of the machine between commands. -/
structure Inv (s : State) : Prop where
  /-- The premise on the configuration (R6, R7). -/
  config    : s.cfg.wf
  /-- Memory keeps its canonical form. -/
  memory    : s.mem.wf
  /-- `FAULT` is 1 exactly when `CAUSE` holds a cause (R16, R17). -/
  cause     : s.fault = true ↔ s.cause ≠ .none
  /-- Each primitive was called as often, and in the order, that the phase says (R108). -/
  events    : s.ev = eventsOf s.cfg s.phase
  /-- From the table load on, `PTR` is the pointer (R101). -/
  pointer   : s.phase ≠ .unloaded → s.ptr = makePointer s.cfg
  /-- From the table load on, entry 0 is eight zero bytes (R22). -/
  nullEntry : s.phase ≠ .unloaded → s.entry 0 = some 0
  /-- From the table load on, every byte of the table has a value (R106). -/
  specified : s.phase ≠ .unloaded → ∀ a, inTable s.cfg a → (s.mem.read a).isSome = true

end Sys2Proof.Machine
end

