-- ==== Sys2Proof/Certificates/Slice0/Obligations.lean ====
section
/-! DEFINITION. The statements for the provers, in the order of the spec's files: the wire formats, the decoder, the
commands one by one, the errors, reset, memory, and the whole machine. A statement holds for every configuration that
meets the premise of rules R6 and R7 (`Config.wf`), for both values of both policies, for every memory and every `PTR`.
"Ends with status c" is always the whole output record: the ports not named hold no value (R61). -/

open Sys2Proof Sys2Proof.Machine

/-! ### The wire formats -/

/-- R70: `pack` is the concatenation the rule prints, byte by byte as the rule prints it, with its worked example. The
positions are the spec's general knowledge of x86 (log 9). -/
def Obligations.PackPlacesEachSubField : Prop :=
  (∀ (base : BitVec 32) (lim : BitVec 20) (access : BitVec 8) (fn : BitVec 4),
    pack base lim access fn =
      base.extractLsb' 24 8 ++ fn ++ lim.extractLsb' 16 4 ++ access ++ base.extractLsb' 0 24 ++ lim.extractLsb' 0 16 ∧
    bytesLE 8 (pack base lim access fn).toNat =
      [lim.extractLsb' 0 8, lim.extractLsb' 8 8, base.extractLsb' 0 8, base.extractLsb' 8 8, base.extractLsb' 16 8,
        access, fn.setWidth 8 <<< 4 ||| (lim.extractLsb' 16 4).setWidth 8, base.extractLsb' 24 8]) ∧
  pack 0x12345678 0xABCDE 0x5A 0x9 = 0x129A5A345678BCDE

/-- R71: `unpack` is the tuple the rule prints, and byte by byte as the rule prints it, with its worked example. -/
def Obligations.UnpackReversesTheSplit : Prop :=
  (∀ d : BitVec 64,
    unpack d = ⟨d.extractLsb' 56 8 ++ d.extractLsb' 16 24, d.extractLsb' 48 4 ++ d.extractLsb' 0 16,
      d.extractLsb' 40 8, d.extractLsb' 52 4⟩ ∧
    ∀ b0 b1 b2 b3 b4 b5 b6 b7 : BitVec 8, bytesLE 8 d.toNat = [b0, b1, b2, b3, b4, b5, b6, b7] →
      (unpack d).base =
        b7.setWidth 32 <<< 24 ||| b4.setWidth 32 <<< 16 ||| b3.setWidth 32 <<< 8 ||| b2.setWidth 32 ∧
      (unpack d).lim20 =
        (b6 &&& 0x0F).setWidth 20 <<< 16 ||| b1.setWidth 20 <<< 8 ||| b0.setWidth 20 ∧
      (unpack d).access = b5 ∧
      (unpack d).fn = (b6 >>> 4).setWidth 4) ∧
  unpack 0x8877665544332211 = ⟨0x88554433, 0x72211, 0x66, 0x7⟩

/-- R51 to R54 (general knowledge, log 9): the access byte and the flags nibble hold each attribute and nothing else, and
the five access bytes and two nibbles the unit writes have the values the spec derives. -/
def Obligations.AttributesReadBack : Prop :=
  (∀ (p : BitVec 1) (dpl : BitVec 2) (s : BitVec 1) (type : BitVec 4),
    accessPresent (accessByte p dpl s type) = p ∧ accessDpl (accessByte p dpl s type) = dpl ∧
    accessS (accessByte p dpl s type) = s ∧ accessType (accessByte p dpl s type) = type) ∧
  (∀ g db l avl : BitVec 1,
    fnGranularity (flagsNibble g db l avl) = g ∧ fnOperandSize (flagsNibble g db l avl) = db ∧
    fnLong (flagsNibble g db l avl) = l ∧ fnAvailable (flagsNibble g db l avl) = avl) ∧
  kernelCodeAccess = 0x9A ∧ kernelDataAccess = 0x92 ∧ userCodeAccess = 0xFA ∧ userDataAccess = 0xF2 ∧
  tssAccess = 0xE9 ∧ flatFlags = 0b1100 ∧ tssFlags = 0b0000

/-- R72, R73: the significant nibble under either alignment; the other four bits have no effect and come back as zero; the
two placements undo each other, on the whole operand exactly when its other nibble is zero. -/
def Obligations.FlagsOperandKeepsOneNibble : Prop :=
  (∀ f : BitVec 8, flagsIn .low f = f.extractLsb' 0 4 ∧ flagsIn .high f = f.extractLsb' 4 4) ∧
  (∀ fn : BitVec 4, flagsOut .low fn = fn.setWidth 8 ∧ flagsOut .high fn = fn ++ 0x0#4) ∧
  (∀ (al : FlagsAlign) (fn : BitVec 4), flagsIn al (flagsOut al fn) = fn) ∧
  (∀ f : BitVec 8, flagsOut .low (flagsIn .low f) = f ↔ f.extractLsb' 4 4 = 0) ∧
  (∀ f : BitVec 8, flagsOut .high (flagsIn .high f) = f ↔ f.extractLsb' 0 4 = 0)

/-- R78: the addressable range of every descriptor, in terms of the fields it was packed from and of `unpack`, with the
source's own property. -/
def Obligations.SpanIsLimitScaledByGranularity : Prop :=
  (∀ (base : BitVec 32) (lim : BitVec 20) (access : BitVec 8) (fn : BitVec 4),
    span (pack base lim access fn) =
      (base.toNat, base.toNat + (lim.toNat + 1) * (if fn.getLsbD 3 then 4096 else 1) - 1)) ∧
  (∀ d : BitVec 64, ∃ (base : BitVec 32) (lim : BitVec 20) (access : BitVec 8) (fn : BitVec 4),
    d = pack base lim access fn ∧ unpack d = ⟨base, lim, access, fn⟩) ∧
  span 0x00CF9A000000FFFF = (0, 0xFFFFFFFF)

/-- R77 (derived in the spec from R70, R71): `DECODE` then `ENCODE` of its four results gives the word back, and `pack` and
`unpack` are inverse to each other. -/
def Obligations.EncodeUndoesDecode : Prop :=
  (∀ (s : State) (d : BitVec 64), ∃ (b l : BitVec 32) (a f : BitVec 8),
    exec (.decode d) s =
      .next { s with out := { status := some .ok, baseOut := some b, limitOut := some l, accessOut := some a,
                              flagsOut := some f } } ∧
    exec (.encode b l a f) s = .next { s with out := { status := some .ok, descOut := some d } }) ∧
  (∀ d : BitVec 64, pack (unpack d).base (unpack d).lim20 (unpack d).access (unpack d).fn = d) ∧
  (∀ (base : BitVec 32) (lim : BitVec 20) (access : BitVec 8) (fn : BitVec 4),
    unpack (pack base lim access fn) = ⟨base, lim, access, fn⟩)

/-- R76: `DECODE` after `ENCODE` gives base, limit and access back exactly and the flags with the other nibble cleared, in
any state of the same alignment; under `TRUNCATE` an oversized limit comes back as its low 20 bits. -/
def Obligations.DecodeUndoesEncode : Prop :=
  ∀ (s s' : State) (base limit : BitVec 32) (access flags : BitVec 8), s'.cfg.flagsAlign = s.cfg.flagsAlign →
    (limit.toNat ≤ 0xFFFFF ∨ s.cfg.limitPolicy = .truncate) →
    ∃ d : BitVec 64,
      exec (.encode base limit access flags) s = .next { s with out := { status := some .ok, descOut := some d } } ∧
      exec (.decode d) s' =
        .next { s' with out :=
          { status := some .ok, baseOut := some base,
            limitOut := some (if limit.toNat ≤ 0xFFFFF then limit else limit &&& 0x000FFFFF#32),
            accessOut := some access,
            flagsOut := some (match s.cfg.flagsAlign with
              | .low => flags &&& 0x0F#8
              | .high => flags &&& 0xF0#8) } }

/-- R82 to R86: the builder's five entries named by the configuration, with their fields and words; index 0 is zero
whatever the configuration. Every other index of the table is 0 (R81, R87). -/
def Obligations.BuilderEntries : Prop :=
  (∀ cfg : Config, (buildTable cfg).length = cfg.gdtEntries ∧ (0 < cfg.gdtEntries → (buildTable cfg)[0]? = some 0)) ∧
  (∀ cfg : Config, cfg.wf →
    (buildTable cfg)[cfg.idxKcode]? = some (pack 0 0xFFFFF 0x9A 0b1100) ∧
    (buildTable cfg)[cfg.idxKdata]? = some (pack 0 0xFFFFF 0x92 0b1100) ∧
    (buildTable cfg)[cfg.idxUcode]? = some (pack 0 0xFFFFF 0xFA 0b1100) ∧
    (buildTable cfg)[cfg.idxUdata]? = some (pack 0 0xFFFFF 0xF2 0b1100) ∧
    ∀ i, i < cfg.gdtEntries → i ≠ cfg.idxKcode → i ≠ cfg.idxKdata → i ≠ cfg.idxUcode → i ≠ cfg.idxUdata →
      (buildTable cfg)[i]? = some 0) ∧
  pack 0 0 0 0 = 0 ∧
  pack 0 0xFFFFF 0x9A 0b1100 = 0x00CF9A000000FFFF ∧ pack 0 0xFFFFF 0x92 0b1100 = 0x00CF92000000FFFF ∧
  pack 0 0xFFFFF 0xFA 0b1100 = 0x00CFFA000000FFFF ∧ pack 0 0xFFFFF 0xF2 0b1100 = 0x00CFF2000000FFFF

/-- R88 (its second clause derived in the spec): each of the four code and data entries spans the whole 4 GiB, and they
differ only in byte 5. -/
def Obligations.FlatSegmentsSpanTheSpace : Prop :=
  ∀ cfg : Config, cfg.wf →
    ∀ i ∈ [cfg.idxKcode, cfg.idxKdata, cfg.idxUcode, cfg.idxUdata],
      ∃ d access, (buildTable cfg)[i]? = some d ∧ span d = (0, 2 ^ 32 - 1) ∧
        bytesLE 8 d.toNat = [0xFF, 0xFF, 0, 0, 0, access, 0xCF, 0]

/-- R100: the pointer holds the table's length in bytes minus one, with nothing lost, and its address, as the
concatenation the rule prints; the six bytes are little-endian (R56); the rule's worked example. -/
def Obligations.PointerHoldsSizeAndAddress : Prop :=
  (∀ cfg : Config, cfg.wf →
    makePointer cfg = cfg.tableAddr ++ BitVec.ofNat 16 (8 * cfg.gdtEntries - 1) ∧
    (pointerSize (makePointer cfg)).toNat = 8 * cfg.gdtEntries - 1 ∧
    pointerAddress (makePointer cfg) = cfg.tableAddr ∧
    pointerBytes (makePointer cfg) =
      bytesLE 2 (8 * cfg.gdtEntries - 1) ++ bytesLE 4 cfg.tableAddr.toNat) ∧
  makePointer { Config.chosen with tableAddr := 0x00100800 } = 0x00100800002F

/-- R102: the selector given to the task-register load is `IDX_TSS * 8` with requested privilege level 0, the value
`SELECTOR index=IDX_TSS rpl=0` yields, `0x0028` when `IDX_TSS` is 5. -/
def Obligations.TssSelectorHasRingZero : Prop :=
  (∀ cfg : Config, cfg.wf →
    (tssSelector cfg).toNat = cfg.idxTss * 8 ∧ (tssSelector cfg).extractLsb' 0 2 = 0 ∧
    ∀ s : State, exec (.selector (BitVec.ofNat 13 cfg.idxTss) 0) s =
      .next { s with out := { status := some .ok, selectorOut := some (tssSelector cfg) } }) ∧
  (∀ cfg : Config, cfg.idxTss = 5 → tssSelector cfg = 0x0028)

/-! ### The decoder and the step -/

/-- Every command written as 32 bytes decodes to itself with every operand (R59, R60, R64; the byte image is the model's
choice, log 6). -/
def Obligations.BytesOfACommandDecodeToIt : Prop :=
  ∀ i : Instr, (encodeBytes i).length = 32 ∧ decodeBytes (encodeBytes i) = .ok i

/-- R60, R64: a command read from the ports, written back, gives the ports it reads and zero elsewhere; so ports in
canonical form (log 6) come back unchanged. -/
def Obligations.DecodedPortsEncodeBack : Prop :=
  ∀ (p : Ports) (i : Instr), decodePorts p = .ok i →
    encodePorts i = p.readBy ∧ (p.canonical → encodePorts i = p)

/-- R64: the opcode map, whole: `op` alone selects the command, whose operands are those of its ports (R60). Codes 0 and 8
to 15 name none; codes 1 to 3 are the pure commands, 4 to 7 the sequenced ones. -/
def Obligations.OpcodeMap : Prop :=
  (∀ i : Instr, i.isPure = true ↔ i.opcode = 0x1 ∨ i.opcode = 0x2 ∨ i.opcode = 0x3) ∧
  (∀ i : Instr, i.isSequenced = true ↔ i.opcode = 0x4 ∨ i.opcode = 0x5 ∨ i.opcode = 0x6 ∨ i.opcode = 0x7) ∧
  ∀ p : Ports,
    (p.op = 0x1 → decodePorts p = .ok (.encode p.base p.limit p.access p.flags)) ∧
    (p.op = 0x2 → decodePorts p = .ok (.decode p.descIn)) ∧
    (p.op = 0x3 → decodePorts p = .ok (.selector p.index p.rpl)) ∧
    (p.op = 0x4 → decodePorts p = .ok .tableLoad) ∧
    (p.op = 0x5 → decodePorts p = .ok (.installTss p.tssIndex p.tssAddress p.tssSize)) ∧
    (p.op = 0x6 → decodePorts p = .ok .trLoad) ∧
    (p.op = 0x7 → decodePorts p = .ok (.init p.tssAddress p.tssSize)) ∧
    (p.op = 0x0 ∨ 0x8 ≤ p.op → decodePorts p = .error (.reservedOp p.op))

/-- A sanity statement: some commands written out byte by byte (R13's ports in order, log 6) decode to what they are. -/
def Obligations.WrittenOutCommandsDecode : Prop :=
  decodeTableWord 8 0x04 = some .tableLoad ∧ decodeTableWord 8 0x06 = some .trLoad ∧
  decodeTableWord 8 0x00 = none ∧ decodeTableWord 8 0x0B = none ∧
  decodeTableWord 8 0x02 = some (.decode 0) ∧
  decodeTableWord 88 0x0C9A000FFFFF0000000001 = some (.encode 0 0xFFFFF 0x9A 0x0C)

/-- One step takes the command now issued and runs exactly it, on the state with that command gone from the input; a
reserved code ends with `ReservedOp` (R41, R64, R65; the input list is the model's, log 5). With no command issued nothing
happens: R139 for the unit; that the output ports keep their values over such an idle step is the model's choice (log 20).
The host's `withFetchWord` makes its word the next command. -/
def Obligations.StepRunsTheIssuedCommand : Prop :=
  (∀ s : State, s.input = [] → step s = .next s) ∧
  (∀ (s : State) (p : Ports) (rest : List Ports), s.input = p :: rest →
    (∀ i, decodePorts p = .ok i → step s = exec i { s with input := rest }) ∧
    (∀ r, decodePorts p = .error r →
      step s = .next { s with input := rest, out := { status := some .reservedOp } })) ∧
  (∀ (s : State) (nbits w : Nat) (i : Instr), decodeTableWord nbits w = some i →
    step (s.withFetchWord nbits w) = exec i s)

/-- R65: a reserved code, in any state: `status = ReservedOp` and nothing else: not `FAULT`, `PHASE`, memory or `EV`. -/
def Obligations.ReservedCodeChangesNothing : Prop :=
  ∀ (s : State) (p : Ports) (rest : List Ports), s.input = p :: rest → (p.op = 0x0 ∨ 0x8 ≤ p.op) →
    step s = .next { s with input := rest, out := { status := some .reservedOp } }

/-! ### The pure commands -/

/-- R74: `ENCODE` completes in every state, for every operand: `Ok` with the packed descriptor, the limit cut to 20 bits
and the significant nibble of `flags`, unless the limit is above `0xFFFFF` under `REJECT`: then `LimitOverflow` and no
other change. -/
def Obligations.EncodeResult : Prop :=
  (∀ (s : State) (base limit : BitVec 32) (access flags : BitVec 8),
    ((limit.toNat ≤ 0xFFFFF ∨ s.cfg.limitPolicy = .truncate) →
      exec (.encode base limit access flags) s =
        .next { s with out := { status := some .ok,
                                descOut := some (pack base (limit.setWidth 20) access
                                  (flagsIn s.cfg.flagsAlign flags)) } }) ∧
    (0xFFFFF < limit.toNat → s.cfg.limitPolicy = .reject →
      exec (.encode base limit access flags) s =
        .next { s with out := { status := some (.error .limitOverflow) } })) ∧
  (∀ s : State, s.cfg.flagsAlign = .low →
    exec (.encode 0 0xFFFFF 0x9A 0x0C) s =
      .next { s with out := { status := some .ok, descOut := some 0x00CF9A000000FFFF } }) ∧
  (∀ s : State, s.cfg.flagsAlign = .high →
    exec (.encode 0 0xFFFFF 0x9A 0xC0) s =
      .next { s with out := { status := some .ok, descOut := some 0x00CF9A000000FFFF } })

/-- R75: `DECODE` completes in every state, for every word, with the four fields, the limit zero-extended and the flags
placed by the alignment, and changes nothing else. -/
def Obligations.DecodeResult : Prop :=
  (∀ (s : State) (d : BitVec 64),
    exec (.decode d) s =
      .next { s with out :=
        { status := some .ok,
          baseOut := some (d.extractLsb' 56 8 ++ d.extractLsb' 16 24),
          limitOut := some ((d.extractLsb' 48 4 ++ d.extractLsb' 0 16 : BitVec 20).setWidth 32),
          accessOut := some (d.extractLsb' 40 8),
          flagsOut := some (match s.cfg.flagsAlign with
            | .low => 0x0#4 ++ d.extractLsb' 52 4
            | .high => d.extractLsb' 52 4 ++ 0x0#4) } }) ∧
  (∀ s : State, exec (.decode 0x0000E91234560067) s =
    .next { s with out := { status := some .ok, baseOut := some 0x00123456, limitOut := some 0x00000067,
                            accessOut := some 0xE9, flagsOut := some 0x00 } })

/-- R89: `SELECTOR` completes in every state, for every index and privilege level, with `index * 8 + rpl` on 16 bits: the
index in bits 15:3, bit 2 zero, the level in bits 1:0; it changes nothing else; the source's two examples. -/
def Obligations.SelectorResult : Prop :=
  (∀ (s : State) (index : BitVec 13) (rpl : BitVec 2), ∃ v : BitVec 16,
    exec (.selector index rpl) s = .next { s with out := { status := some .ok, selectorOut := some v } } ∧
    v = index.setWidth 16 <<< 3 ||| rpl.setWidth 16 ∧ v.toNat = index.toNat * 8 + rpl.toNat ∧
    v.extractLsb' 3 13 = index ∧ v.getLsbD 2 = false ∧ v.extractLsb' 0 2 = rpl) ∧
  (∀ s : State,
    exec (.selector 1 0) s = .next { s with out := { status := some .ok, selectorOut := some 0x0008 } } ∧
    exec (.selector 2 3) s = .next { s with out := { status := some .ok, selectorOut := some 0x0013 } })

/-- R79: a pure command gives the same result in every state, whatever phase, fault, trace and memory: it depends on the
configuration only through the two policies, and it changes nothing but the output ports. -/
def Obligations.PureResultsDependOnOperandsOnly : Prop :=
  ∀ (i : Instr) (s s' : State), i.isPure = true →
    s'.cfg.limitPolicy = s.cfg.limitPolicy → s'.cfg.flagsAlign = s.cfg.flagsAlign →
    ∃ o : Outputs, exec i s = .next { s with out := o } ∧ exec i s' = .next { s' with out := o }

/-! ### The sequenced commands -/

/-- R106: `TABLE_LOAD` on every state: `Halted` on a faulted unit; a sticky order violation outside `Unloaded`; else it
completes: every entry of the table is the builder's whatever memory held, no other byte changes, `PTR` is written, one
event with its value is emitted, and the phase is `TableLoaded`. -/
def Obligations.TableLoadEffect : Prop :=
  ∀ s : State, s.cfg.wf →
    (s.fault = true → exec .tableLoad s = .next { s with out := { status := some .halted } }) ∧
    (s.fault = false → s.phase ≠ .unloaded →
      exec .tableLoad s =
        .next { s with fault := true, cause := .error .orderViolation,
                       out := { status := some (.error .orderViolation) } }) ∧
    (s.fault = false → s.phase = .unloaded →
      ∃ m : Memory,
        exec .tableLoad s =
          .next { s with mem := m, ptr := makePointer s.cfg,
                         ev := s.ev ++ [.loadDescriptorTable (makePointer s.cfg)], phase := .tableLoaded,
                         out := { status := some .ok } } ∧
        (∀ i, i < s.cfg.gdtEntries →
          m.read64 (s.cfg.tableAddr.toNat + 8 * i) = (buildTable s.cfg)[i]?) ∧
        (∀ a, ¬ inTable s.cfg a → m.read a = s.mem.read a))

/-- R94: `INSTALL_TSS` on every state, its checks in the rule's order; when all pass it completes: the entry named holds
the TSS descriptor (base the address, limit the size minus one cut to 20 bits, access `0xE9`, byte granularity), the
table is the old one patched there (R93), no byte outside the entry changes, and the phase is `TSSInstalled`. -/
def Obligations.InstallTssEffect : Prop :=
  ∀ (s : State) (k : BitVec 13) (a n : BitVec 32), s.cfg.wf →
    (s.fault = true → exec (.installTss k a n) s = .next { s with out := { status := some .halted } }) ∧
    (s.fault = false → ∀ e, installError s k.toNat n.toNat = some e →
      exec (.installTss k a n) s =
        .next { s with fault := true, cause := .error e, out := { status := some (.error e) } }) ∧
    (s.fault = false → installError s k.toNat n.toNat = none →
      ∃ m : Memory,
        exec (.installTss k a n) s =
          .next { s with mem := m, phase := .tssInstalled, out := { status := some .ok } } ∧
        m.read64 (s.cfg.tableAddr.toNat + 8 * k.toNat) =
          some (pack a (BitVec.ofNat 20 (n.toNat - 1)) 0xE9 0b0000) ∧
        ({ s with mem := m } : State).table =
          patch s.table k.toNat (pack a (BitVec.ofNat 20 (n.toNat - 1)) 0xE9 0b0000) ∧
        (∀ x, x < s.cfg.tableAddr.toNat + 8 * k.toNat ∨ s.cfg.tableAddr.toNat + 8 * k.toNat + 8 ≤ x →
          m.read x = s.mem.read x))

/-- R107: `TR_LOAD` on every state: `Halted` on a faulted unit; a sticky order violation outside `TSSInstalled`; else it
completes: one event with the selector formed from `IDX_TSS` (the selector's value is R102's statement), the phase
`TaskRegisterLoaded`, no memory written. -/
def Obligations.TrLoadEffect : Prop :=
  ∀ s : State,
    (s.fault = true → exec .trLoad s = .next { s with out := { status := some .halted } }) ∧
    (s.fault = false → s.phase ≠ .tssInstalled →
      exec .trLoad s =
        .next { s with fault := true, cause := .error .orderViolation,
                       out := { status := some (.error .orderViolation) } }) ∧
    (s.fault = false → s.phase = .tssInstalled →
      exec .trLoad s =
        .next { s with ev := s.ev ++ [.loadTaskRegister (BitVec.ofNat 16 (BitVec.ofNat 13 s.cfg.idxTss).toNat <<< 3)],
                       phase := .taskRegisterLoaded, out := { status := some .ok } })

/-- R113: `INIT` on every state. On a faulted unit `Halted`; outside `Unloaded` a sticky order violation; else the table is
loaded, and then: a zero size, or an oversized one under `REJECT`, is a sticky fault with the effects of the first step
kept; any other size completes with the TSS descriptor in entry `IDX_TSS`, every other entry the builder's, both events
in order, and the phase `TaskRegisterLoaded`. No byte outside the table ever changes. -/
def Obligations.InitEffect : Prop :=
  ∀ (s : State) (a n : BitVec 32), s.cfg.wf →
    (s.fault = true → exec (.init a n) s = .next { s with out := { status := some .halted } }) ∧
    (s.fault = false → s.phase ≠ .unloaded →
      exec (.init a n) s =
        .next { s with fault := true, cause := .error .orderViolation,
                       out := { status := some (.error .orderViolation) } }) ∧
    (s.fault = false → s.phase = .unloaded →
      ∃ m : Memory, (∀ x, ¬ inTable s.cfg x → m.read x = s.mem.read x) ∧
        (∀ i, i < s.cfg.gdtEntries → i ≠ s.cfg.idxTss →
          m.read64 (s.cfg.tableAddr.toNat + 8 * i) = (buildTable s.cfg)[i]?) ∧
        (∀ e, sizeError s.cfg n.toNat = some e →
          exec (.init a n) s =
            .next { s with mem := m, ptr := makePointer s.cfg,
                           ev := s.ev ++ [.loadDescriptorTable (makePointer s.cfg)], phase := .tableLoaded,
                           fault := true, cause := .error e, out := { status := some (.error e) } } ∧
          m.read64 (s.cfg.tableAddr.toNat + 8 * s.cfg.idxTss) = some 0) ∧
        (sizeError s.cfg n.toNat = none →
          exec (.init a n) s =
            .next { s with mem := m, ptr := makePointer s.cfg,
                           ev := s.ev ++ [.loadDescriptorTable (makePointer s.cfg),
                                          .loadTaskRegister (tssSelector s.cfg)],
                           phase := .taskRegisterLoaded, out := { status := some .ok } } ∧
          m.read64 (s.cfg.tableAddr.toNat + 8 * s.cfg.idxTss) =
            some (pack a (BitVec.ofNat 20 (n.toNat - 1)) 0xE9 0b0000)))

/-- R112: the transition table. On a unit with `FAULT = 0` a sequenced command always answers; a cell the table does not
admit is a sticky order violation that changes nothing else; an admitted cell never is one, leads to the table's phase
when the command's other checks pass, and, for the three single-step commands, keeps the phase when they do not (for
`INIT` see R113 and log 18). -/
def Obligations.TransitionTable : Prop :=
  ∀ (i : Instr) (s : State), s.cfg.wf → s.fault = false → i.isSequenced = true →
    ∃ t : State, exec i s = .next t ∧
      (transition i s.phase = none →
        t = { s with fault := true, cause := .error .orderViolation,
                     out := { status := some (.error .orderViolation) } }) ∧
      (∀ p, transition i s.phase = some p →
        t.out.status ≠ some (.error .orderViolation) ∧
        (t.out.status = some .ok → t.phase = p ∧ t.fault = false) ∧
        (t.out.status ≠ some .ok → t.fault = true ∧ ((∀ a n, i ≠ .init a n) → t.phase = s.phase)))

/-- R95: a successful install issued again with the same operands succeeds, stores the same bytes and changes nothing; with
other admissible operands it also succeeds and the last one wins; after `TR_LOAD` no install is admitted, whatever its operands. (Canonical memory is the
invariant's clause.) -/
def Obligations.InstallTssIsIdempotent : Prop :=
  ∀ (s t : State) (k : BitVec 13) (a n : BitVec 32), s.mem.wf →
    exec (.installTss k a n) s = .next t → t.out.status = some .ok →
    exec (.installTss k a n) t = .next t ∧
    (s.cfg.wf → ∀ (k' : BitVec 13) (a' n' : BitVec 32), k' ≠ 0 → k'.toNat < s.cfg.gdtEntries → n' ≠ 0 →
      (n'.toNat ≤ 0x100000 ∨ s.cfg.limitPolicy = .truncate) →
      ∃ t', exec (.installTss k' a' n') t = .next t' ∧ t'.out.status = some .ok ∧ t'.phase = .tssInstalled ∧
        t'.entry k'.toNat = some (pack a' (BitVec.ofNat 20 (n'.toNat - 1)) 0xE9 0b0000)) ∧
    (∀ u, exec .trLoad t = .next u → ∀ (k' : BitVec 13) (a' n' : BitVec 32),
      exec (.installTss k' a' n') u =
        .next { u with fault := true, cause := .error .orderViolation,
                       out := { status := some (.error .orderViolation) } })

/-- R98 (its model clause derived in the spec): build a table, install a TSS of size S at address A, read entry `IDX_TSS`,
decode it: the base is A, the limit S - 1, access `0xE9`, flags 0, and every other entry is still the builder's. -/
def Obligations.InstalledEntryDecodesToTheTss : Prop :=
  ∀ (s : State) (a n : BitVec 32), s.cfg.wf → s.fault = false → s.phase = .unloaded →
    1 ≤ n.toNat → n.toNat ≤ 0x100000 →
    ∃ (t1 t2 : State) (d : BitVec 64),
      exec .tableLoad s = .next t1 ∧
      exec (.installTss (BitVec.ofNat 13 s.cfg.idxTss) a n) t1 = .next t2 ∧
      t2.entry s.cfg.idxTss = some d ∧
      exec (.decode d) t2 =
        .next { t2 with out := { status := some .ok, baseOut := some a, limitOut := some (n - 1),
                                 accessOut := some 0xE9, flagsOut := some 0x00 } } ∧
      ∀ i, i < s.cfg.gdtEntries → i ≠ s.cfg.idxTss → t2.entry i = (buildTable s.cfg)[i]?

/-! ### Errors -/

/-- R120, R14: the codes of `status`, `CAUSE` and `PHASE`: different results have different codes, an error has the same
code in both, and code 7 is never produced. -/
def Obligations.CodesOfStatusCauseAndPhase : Prop :=
  Status.code .ok = 0 ∧ Status.code (.error .limitOverflow) = 1 ∧ Status.code (.error .orderViolation) = 2 ∧
  Status.code (.error .indexOutOfRange) = 3 ∧ Status.code (.error .badTssSize) = 4 ∧
  Status.code .reservedOp = 5 ∧ Status.code .halted = 6 ∧
  (∀ c : Status, Status.code c ≠ 7) ∧ (∀ c c' : Status, Status.code c = Status.code c' → c = c') ∧
  Cause.code .none = 0 ∧ (∀ e : ConfigError, Cause.code (.error e) = Status.code (.error e)) ∧
  Phase.code .unloaded = 0 ∧ Phase.code .tableLoaded = 1 ∧ Phase.code .tssInstalled = 2 ∧
  Phase.code .taskRegisterLoaded = 3

/-- R121: which command can give which code, complete: none gives a code outside its row, none gives `LimitOverflow` under
`TRUNCATE`, and each code of each row is given by some operands in some state of some configuration. -/
def Obligations.CodesOfEachCommand : Prop :=
  (∀ (i : Instr) (s t : State), s.cfg.wf → exec i s = .next t →
    ∃ c, t.out.status = some c ∧ mayGive i.opcode c = true ∧
      (s.cfg.limitPolicy = .truncate → c ≠ .error .limitOverflow)) ∧
  (∀ (op : BitVec 4) (c : Status), mayGive op c = true →
    ∃ (i : Instr) (s t : State), i.opcode = op ∧ s.cfg.wf ∧ exec i s = .next t ∧ t.out.status = some c)

/-- R125: the order of checks, for every command and every reserved code, in every state: the code reported is that of the
first check that fails. -/
def Obligations.FirstFailingCheckIsReported : Prop :=
  ∀ (s : State) (p : Ports) (rest : List Ports), s.cfg.wf → s.input = p :: rest →
    ∃ t, step s = .next t ∧ t.out.status = some (expectedStatus p s)

/-- R126 (derived in the spec from R123): faults are precise. A single-step sequenced command that ends in an error has
changed `FAULT`, `CAUSE` and `status` and nothing else. -/
def Obligations.SingleStepFaultsArePrecise : Prop :=
  ∀ (i : Instr) (s t : State) (c : ConfigError),
    (i = .tableLoad ∨ (∃ k a n, i = .installTss k a n) ∨ i = .trLoad) →
    exec i s = .next t → t.out.status = some (.error c) →
    t = { s with fault := true, cause := .error c, out := { status := some (.error c) } }

/-- R124: while `FAULT` is 1 every sequenced command returns `Halted` and changes nothing; a pure command does what it does
on the unit without the fault; no step clears `FAULT` or changes `CAUSE`; reset clears both. -/
def Obligations.FaultHaltsTheSequenceUntilReset : Prop :=
  ∀ s : State, s.fault = true →
    (∀ i : Instr, i.isSequenced = true → exec i s = .next { s with out := { status := some .halted } }) ∧
    (∀ i : Instr, i.isPure = true →
      ∃ o, exec i s = .next { s with out := o } ∧
        exec i { s with fault := false, cause := .none } = .next { s with fault := false, cause := .none, out := o }) ∧
    (∀ t, step s = .next t → t.fault = true ∧ t.cause = s.cause ∧ t.phase = s.phase) ∧
    (∀ p, (applyReset p s).fault = false ∧ (applyReset p s).cause = .none ∧ (applyReset p s).phase = .unloaded)

/-- R17 (and R16): `CAUSE` is none after reset and is written only in the step that sets `FAULT` from 0 to 1, by a sequenced
command, with the code that command reports. -/
def Obligations.CauseHoldsTheFirstFault : Prop :=
  State.reset.cause = .none ∧ (∀ (s : State) (p : BitVec 48), (applyReset p s).cause = .none) ∧
  Cause.code .none = 0 ∧
  ∀ s t : State, step s = .next t →
    (t.fault = s.fault ∧ t.cause = s.cause) ∨
    (s.fault = false ∧ t.fault = true ∧
      ∃ e i p rest, t.cause = .error e ∧ t.out.status = some (.error e) ∧ s.input = p :: rest ∧
        decodePorts p = .ok i ∧ i.isSequenced = true)

/-- R61: what the output ports hold after a command: `status` always; on `Ok` the result ports of that command and no
other; on any other status none. -/
def Obligations.OnlyTheCommandsPortsAreWritten : Prop :=
  ∀ (i : Instr) (s t : State), exec i s = .next t →
    (∃ c, t.out.status = some c) ∧
    (t.out.status ≠ some .ok → t.out.hasResult = false) ∧
    (i.isSequenced = true → t.out.hasResult = false) ∧
    (t.out.status = some .ok →
      (t.out.descOut.isSome = true ↔ i.opcode = 1) ∧
      (t.out.baseOut.isSome = true ↔ i.opcode = 2) ∧ (t.out.limitOut.isSome = true ↔ i.opcode = 2) ∧
      (t.out.accessOut.isSome = true ↔ i.opcode = 2) ∧ (t.out.flagsOut.isSome = true ↔ i.opcode = 2) ∧
      (t.out.selectorOut.isSome = true ↔ i.opcode = 3))

/-! ### Reset -/

/-- R31, R137: what reset leaves. The state after power-on has the values rule R31 gives, and a reset of any state gives
them again. `PTR` and memory are unspecified by the rule and nothing is said of their values. -/
def Obligations.ResetValues : Prop :=
  ∀ (s : State) (p : BitVec 48), ∀ r ∈ [State.reset, applyReset p s],
    r.phase = .unloaded ∧ r.fault = false ∧ r.cause = .none ∧ r.ev = [] ∧ r.out = {}

/-- R138: reset does not write memory, so a reset after a completed run does not restore the TSS placeholder; the next
`TABLE_LOAD` does. -/
def Obligations.ResetKeepsMemory : Prop :=
  ∀ (s : State) (p : BitVec 48),
    (applyReset p s).mem = s.mem ∧ (applyReset p s).cfg = s.cfg ∧
    (s.cfg.wf → ∃ t, exec .tableLoad (applyReset p s) = .next t ∧ t.entry s.cfg.idxTss = some 0)

/-! ### Memory -/

/-- R40: in canonical memory a write of the word already there changes nothing, and the same write done twice leaves the
same memory. -/
def Obligations.RepeatedWriteChangesNothing : Prop :=
  ∀ (m : Memory) (a : Nat) (v : BitVec 64), m.wf →
    (m.read64 a = some v → a + 8 ≤ 2 ^ 32 → m.write64 a v = some m) ∧
    (∀ m', m.write64 a v = some m' → m'.write64 a v = some m')

/-- R39, R35, R33: a word written is read back byte by byte, least significant byte at the lowest address; no other byte
changes, whatever the alignment; the canonical form is kept; and the write succeeds exactly inside the 32-bit space (the
failure is the model's own, log 7). -/
def Obligations.WordWriteStoresEightBytes : Prop :=
  ∀ (m : Memory) (a : Nat) (v : BitVec 64),
    ((m.write64 a v).isSome = true ↔ a + 8 ≤ 2 ^ 32) ∧
    (∀ m', m.write64 a v = some m' →
      m'.read64 a = some v ∧ (∀ k, k < 8 → m'.read (a + k) = some (v.extractLsb' (8 * k) 8)) ∧
      (∀ x, x < a ∨ a + 8 ≤ x → m'.read x = m.read x) ∧ (m.wf → m'.wf))

/-- R36 (derived in the spec from R35): a reader that takes an entry as eight bytes, as two 32-bit words or as one 64-bit
word sees the same bits. -/
def Obligations.MixedWidthReadsAgree : Prop :=
  ∀ (m : Memory) (a : Nat) (d : BitVec 64), m.read64 a = some d ↔
    (m.read32 a = some (d.extractLsb' 0 32) ∧ m.read32 (a + 4) = some (d.extractLsb' 32 32) ∧
      ∀ k, k < 8 → m.read (a + k) = some (d.extractLsb' (8 * k) 8))

/-- R33, R47: no step changes a byte outside the table region. -/
def Obligations.StoresStayInTheTable : Prop :=
  ∀ s t : State, step s = .next t → ∀ a, ¬ inTable s.cfg a → t.mem.read a = s.mem.read a

/-- R29, R148: no step changes a byte of the TSS Record, nor where it is; so the ring-0 stack pointer, and any other field
that lies inside the configured record, keeps its value (the layout of the fields is presumed, log 15). -/
def Obligations.TssRecordIsNeverWritten : Prop :=
  ∀ s t : State, s.cfg.wf → step s = .next t →
    t.cfg.tssAddr = s.cfg.tssAddr ∧ t.cfg.tssSize = s.cfg.tssSize ∧
    (∀ a, inTssRecord s.cfg a → t.mem.read a = s.mem.read a) ∧
    (∀ f : TssField, f.offset + f.bytes ≤ s.cfg.tssSize.toNat → f.read t = f.read s)

/-- R38 ("No command reads memory"): two units that differ only in memory step alike and still differ only in memory; and
each byte of memory is either stored, with the same value in both, or left as it was in both. -/
def Obligations.NoCommandReadsMemory : Prop :=
  ∀ (s t : State) (m : Memory), step s = .next t →
    ∃ m', step { s with mem := m } = .next { t with mem := m' } ∧
      ∀ a, m'.read a = t.mem.read a ∨ (m'.read a = m.read a ∧ t.mem.read a = s.mem.read a)

/-- R44, R30: after an install in a run that has loaded the table, a descriptor fetch the processor makes through the table
address it was handed gives the new descriptor, with no second load (the fetch is a view of the model, log 10). -/
def Obligations.LaterFetchSeesThePatchedEntry : Prop :=
  ∀ (s t : State) (k : BitVec 13) (rpl : BitVec 2) (a n : BitVec 32), Inv s →
    exec (.installTss k a n) s = .next t → t.out.status = some .ok →
    t.ev = s.ev ∧ fetchDescriptor t (selectorOf k rpl) = some (pack a (BitVec.ofNat 20 (n.toNat - 1)) 0xE9 0b0000)

/-! ### Frames -/

/-- The frame of the commands that store nothing: `ENCODE`, `DECODE`, `SELECTOR` change only the output ports; `TR_LOAD`
besides these only `PHASE`, `EV` (never shortened) and, on an error, `FAULT` and `CAUSE`. Every byte of memory reads as
before. -/
def Obligations.FrameOfNonStoringCommands : Prop :=
  ∀ (i : Instr) (s t : State), (i.isPure = true ∨ i = .trLoad) → exec i s = .next t →
    (∀ a, t.mem.read a = s.mem.read a) ∧ t.ptr = s.ptr ∧ t.cfg = s.cfg ∧ t.input = s.input ∧
    (i.isPure = true → t = { s with out := t.out }) ∧
    (t.out.status ≠ some .ok → t.phase = s.phase ∧ t.ev = s.ev) ∧
    (t.out.status = some .ok → t.fault = s.fault ∧ t.cause = s.cause) ∧
    (∃ es, t.ev = s.ev ++ es)

/-- The frame of `INSTALL_TSS`: the stored bytes are the eight at the effective address of R47 for its index, every other
byte reads as before; `PTR`, `EV`, the configuration and the input are unchanged; `FAULT` and `CAUSE` are unchanged when
it succeeds, `PHASE` and every byte when it does not. -/
def Obligations.FrameOfInstallTss : Prop :=
  ∀ (k : BitVec 13) (a n : BitVec 32) (s t : State), exec (.installTss k a n) s = .next t →
    (∀ ea, ea = entryAddress s.cfg k.toNat → ∀ x, x < ea ∨ ea + 8 ≤ x → t.mem.read x = s.mem.read x) ∧
    t.ptr = s.ptr ∧ t.ev = s.ev ∧ t.cfg = s.cfg ∧ t.input = s.input ∧
    (t.out.status = some .ok → t.fault = s.fault ∧ t.cause = s.cause) ∧
    (t.out.status ≠ some .ok → t.phase = s.phase ∧ ∀ x, t.mem.read x = s.mem.read x)

/-- The frame of `TABLE_LOAD` and `INIT`: the stored bytes are those at the effective addresses of R47 for the table's
indices, every other byte reads as before; the configuration and the input are unchanged; `FAULT` and `CAUSE` are
unchanged on success; a command turned away in its first checks changes nothing but `FAULT`, `CAUSE` and `status`. -/
def Obligations.FrameOfTableLoadAndInit : Prop :=
  ∀ (i : Instr) (s t : State), (i = .tableLoad ∨ ∃ a n, i = .init a n) → exec i s = .next t →
    (∀ x, (∀ j, j < s.cfg.gdtEntries → x < entryAddress s.cfg j ∨ entryAddress s.cfg j + 8 ≤ x) →
      t.mem.read x = s.mem.read x) ∧
    t.cfg = s.cfg ∧ t.input = s.input ∧
    (t.out.status = some .ok → t.fault = s.fault ∧ t.cause = s.cause) ∧
    ((s.fault = true ∨ s.phase ≠ .unloaded) →
      t.ptr = s.ptr ∧ t.ev = s.ev ∧ t.phase = s.phase ∧ ∀ x, t.mem.read x = s.mem.read x)

/-! ### The whole machine -/

/-- R63, R32: the configuration is constant for a run and no command can change it: no step does, and no run of any number
of steps. -/
def Obligations.ConfigurationIsConstant : Prop :=
  (∀ s t : State, step s = .next t → t.cfg = s.cfg) ∧
  ∀ (k : Nat) (s t : State), Sys2Proof.core.run k s = .next t → t.cfg = s.cfg

/-- R152, R37: every command is one step that terminates: under the premise of R6 and R7 no step stops, whatever the
alignment of the table and whatever the command; and it takes exactly one command from the input (log 5). -/
def Obligations.EveryStepAnswersANextState : Prop :=
  ∀ s : State, s.cfg.wf → ∃ t, step s = .next t ∧ t.input = s.input.tail

/-- R115 (derived in the spec from R112): no way back. No step lowers `PHASE`; only reset returns it to `Unloaded`. -/
def Obligations.PhaseNeverGoesBack : Prop :=
  (∀ s t : State, step s = .next t → s.phase.code.toNat ≤ t.phase.code.toNat) ∧
  (∀ (s : State) (p : BitVec 48), (applyReset p s).phase = .unloaded)

/-- R22 (derived in the spec from R82, R94): from a completed table load on, entry 0 is eight zero bytes; and
in every phase a step leaves each byte of it as it was or makes it zero. -/
def Obligations.NullDescriptorStaysZero : Prop :=
  ∀ s t : State, s.cfg.wf → step s = .next t →
    (s.phase ≠ .unloaded → s.entry 0 = some 0 → t.entry 0 = some 0) ∧
    (s.phase = .unloaded → t.phase ≠ .unloaded → t.entry 0 = some 0) ∧
    (∀ j, j < 8 → t.mem.read (entryAddress s.cfg 0 + j) = s.mem.read (entryAddress s.cfg 0 + j) ∨
      t.mem.read (entryAddress s.cfg 0 + j) = some 0)

/-- R110 (derived in the spec from R107, R94): the phase `TaskRegisterLoaded` is entered only from `TSSInstalled`, or in the
one step of an `INIT` whose install has put a present descriptor in entry `IDX_TSS`. -/
def Obligations.TaskRegisterLoadNeedsAnInstall : Prop :=
  ∀ s t : State, s.cfg.wf → step s = .next t → s.phase ≠ .taskRegisterLoaded → t.phase = .taskRegisterLoaded →
    s.phase = .tssInstalled ∨
    (s.phase = .unloaded ∧ ∃ d, t.entry s.cfg.idxTss = some d ∧ accessPresent (unpack d).access = 1)

/-- The invariant holds in `State.reset`, and after a reset of any state with a legal configuration and canonical memory. The
first clause rests on the model's own values: it says that the configuration `State.reset` carries, whose placement is the
model's choice (log 2), meets R6 and R7, and that its memory, which lists nothing (log 4), is canonical. -/
def Obligations.InvariantHoldsAtReset : Prop :=
  Inv State.reset ∧ ∀ (s : State) (p : BitVec 48), s.cfg.wf → s.mem.wf → Inv (applyReset p s)

/-- The invariant is kept by every step: the configuration legal, memory canonical, `FAULT` and `CAUSE` in agreement, the
trace the one the phase says (each primitive called at most once, in order, R108), `PTR` the pointer and entry 0 zero
and every table byte specified from the table load on (R101, R22, R106). -/
def Obligations.InvariantIsKeptByEveryStep : Prop :=
  ∀ s t : State, Inv s → step s = .next t → Inv t

/-- R108, R19 (derived in the spec): in any run from a state that meets the invariant, over any commands, each primitive is
called at most once and the table load precedes the task-register load; a run that ends in `TaskRegisterLoaded` has
called each exactly once, with the pointer and the TSS selector. -/
def Obligations.PrimitivesAreCalledOnceInOrder : Prop :=
  ∀ (k : Nat) (s t : State), Inv s → Sys2Proof.core.run k s = .next t →
    t.ev <+: [.loadDescriptorTable (makePointer s.cfg), .loadTaskRegister (tssSelector s.cfg)] ∧
    (t.phase = .taskRegisterLoaded →
      t.ev = [.loadDescriptorTable (makePointer s.cfg), .loadTaskRegister (tssSelector s.cfg)])

/-- R118 (derived in the spec from R113): `INIT` and the three commands leave the unit and memory in exactly the same
state, for every address and size, in success and in every failure; only the last command's output ports differ. -/
def Obligations.InitEqualsTheThreeCommands : Prop :=
  ∀ (s : State) (a n : BitVec 32), s.cfg.wf → s.fault = false → s.phase = .unloaded →
    ∃ t t' : State,
      runCommands [.init a n] s = .next t ∧
      runCommands [.tableLoad, .installTss (BitVec.ofNat 13 s.cfg.idxTss) a n, .trLoad] s = .next t' ∧
      { t with out := {} } = { t' with out := {} }

/-- R114 (derived in the spec from R112): the only sequence of sequenced commands that brings a unit with no table loaded to
`TaskRegisterLoaded` without a fault is one `INIT`, or `TABLE_LOAD`, then one or more `INSTALL_TSS`, then `TR_LOAD`, with
pure commands anywhere between. -/
def Obligations.OnlyOneOrderReachesTheEnd : Prop :=
  ∀ (is : List Instr) (s t : State), s.fault = false → s.phase = .unloaded →
    runCommands is s = .next t → t.endedWell →
    (∃ a n, is.filter Instr.isSequenced = [.init a n]) ∨
    (∃ js : List Instr, js ≠ [] ∧ (∀ j ∈ js, ∃ k a n, j = .installTss k a n) ∧
      is.filter Instr.isSequenced = .tableLoad :: js ++ [.trLoad])
end

