-- ==== Sys2Proof/Laws/Memory.lean ====
section
/-! SUPPORT. What reads see after writes, and that every memory operation keeps the canonical form. -/

namespace Sys2Proof.Machine

open Sys2Proof

/-! ### One byte -/

theorem Memory.read_write_same (m : Memory) (a : Nat) (b : Byte) : (m.write a b).read a = some b := by
  induction m with
  | nil => simp [Memory.write, Memory.read]
  | cons c m ih =>
    obtain ⟨a', b'⟩ := c
    unfold Memory.write
    split_ifs with h1 h2
    · simp [Memory.read]
    · simp [Memory.read]
    · have h3 : a' ≠ a := fun h => h2 h.symm
      simp [Memory.read, h3, ih]

theorem Memory.read_write_other (m : Memory) {a x : Nat} (b : Byte) (h : x ≠ a) :
    (m.write a b).read x = m.read x := by
  have h' : a ≠ x := fun e => h e.symm
  induction m with
  | nil => simp [Memory.write, Memory.read, h']
  | cons c m ih =>
    obtain ⟨a', b'⟩ := c
    unfold Memory.write
    split_ifs with h1 h2
    · simp [Memory.read, h']
    · subst h2; simp [Memory.read, h']
    · simp [Memory.read, ih]

theorem Memory.mem_write {m : Memory} {a : Nat} {b : Byte} {c : Host.Cell} (h : c ∈ m.write a b) :
    c = (a, b) ∨ c ∈ m := by
  induction m with
  | nil => simpa [Memory.write] using h
  | cons d m ih =>
    obtain ⟨a', b'⟩ := d
    unfold Memory.write at h
    split_ifs at h with h1 h2
    · simpa using h
    · subst h2
      rcases List.mem_cons.1 h with h | h
      · exact .inl h
      · exact .inr (List.mem_cons_of_mem _ h)
    · rcases List.mem_cons.1 h with h | h
      · exact .inr (h ▸ List.mem_cons_self)
      · exact (ih h).imp id (List.mem_cons_of_mem _)

/-- A write keeps the canonical form. -/
theorem Memory.write_wf {m : Memory} (hm : m.wf) {a : Nat} (ha : a < addressSpace) (b : Byte) : (m.write a b).wf := by
  obtain ⟨hs, hr⟩ := hm
  refine ⟨?_, fun c hc => ?_⟩
  · induction m with
    | nil => simp [Memory.write]
    | cons d m ih =>
      obtain ⟨a', b'⟩ := d
      simp only [List.map_cons, List.pairwise_cons, List.mem_map] at hs
      have hlo : ∀ x ∈ m, a' < x.1 := fun x hx => hs.1 _ ⟨x, hx, rfl⟩
      unfold Memory.write
      split_ifs with h1 h2
      · simp only [List.map_cons, List.pairwise_cons, List.mem_cons, List.mem_map]
        refine ⟨?_, fun y hy => ?_, hs.2⟩
        · rintro y (rfl | ⟨x, hx, rfl⟩)
          · exact h1
          · exact Nat.lt_trans h1 (hlo x hx)
        · obtain ⟨x, hx, rfl⟩ := hy; exact hlo x hx
      · subst h2
        simp only [List.map_cons, List.pairwise_cons, List.mem_map]
        exact ⟨fun y hy => by obtain ⟨x, hx, rfl⟩ := hy; exact hlo x hx, hs.2⟩
      · simp only [List.map_cons, List.pairwise_cons, List.mem_map]
        refine ⟨fun y hy => ?_, ih hs.2 fun c hc => hr c (List.mem_cons_of_mem _ hc)⟩
        obtain ⟨x, hx, rfl⟩ := hy
        rcases Memory.mem_write hx with rfl | hx
        · simp only; omega
        · exact hlo x hx
  · rcases Memory.mem_write hc with rfl | hc
    · exact ha
    · exact hr c hc

/-- In a canonical memory, writing a byte that is already there changes nothing (R40). -/
theorem Memory.write_read {m : Memory} (hm : m.wf) {a : Nat} {b : Byte} (h : m.read a = some b) : m.write a b = m := by
  induction m with
  | nil => simp [Memory.read, Memory.unlisted] at h
  | cons d m ih =>
    obtain ⟨a', b'⟩ := d
    obtain ⟨hs, hr⟩ := hm
    simp only [List.map_cons, List.pairwise_cons, List.mem_map] at hs
    have hlo : ∀ x ∈ m, a' < x.1 := fun x hx => hs.1 _ ⟨x, hx, rfl⟩
    have hwf : Memory.wf m := ⟨hs.2, fun c hc => hr c (List.mem_cons_of_mem _ hc)⟩
    by_cases e : a' = a
    · subst e
      simp only [Memory.read, if_true, Option.some.injEq] at h
      simp [Memory.write, h]
    · simp only [Memory.read, if_neg e] at h
      have hmem : ∃ x ∈ m, x.1 = a := by
        clear ih hs hr hlo hwf
        induction m with
        | nil => simp [Memory.read, Memory.unlisted] at h
        | cons y m ih2 =>
          obtain ⟨ya, yb⟩ := y
          by_cases ey : ya = a
          · exact ⟨_, List.mem_cons_self, ey⟩
          · simp only [Memory.read, if_neg ey] at h
            obtain ⟨x, hx, hxa⟩ := ih2 h
            exact ⟨x, List.mem_cons_of_mem _ hx, hxa⟩
      obtain ⟨x, hx, rfl⟩ := hmem
      have hlt := hlo x hx
      have h1 : ¬ x.1 < a' := by omega
      have h2 : ¬ x.1 = a' := by omega
      simp [Memory.write, h1, h2, ih hwf h]

/-! ### Several bytes -/

/-- A store of bytes succeeds exactly when it stays in the 32-bit space. -/
theorem Memory.storeBytes_isSome (m : Memory) (a : Nat) (bs : List Byte) :
    (m.storeBytes a bs).isSome = true ↔ (bs = [] ∨ a + bs.length ≤ addressSpace) := by
  induction bs generalizing m a with
  | nil => simp [Memory.storeBytes]
  | cons b bs ih =>
    unfold Memory.storeBytes
    split_ifs with h
    · rw [ih]
      cases bs with
      | nil => simp; omega
      | cons c cs => simp; omega
    · simp; omega

/-- Everything a store of bytes does: the bytes stand at `a` and up, every other byte is as before, and the canonical form
is kept. -/
theorem Memory.storeBytes_spec {m m' : Memory} {a : Nat} {bs : List Byte} (h : m.storeBytes a bs = some m') :
    (∀ k (hk : k < bs.length), m'.read (a + k) = some bs[k]) ∧
    (∀ x, x < a ∨ a + bs.length ≤ x → m'.read x = m.read x) ∧
    (m.wf → m'.wf) := by
  induction bs generalizing m a with
  | nil =>
    cases h
    exact ⟨fun k hk => absurd hk (by simp), fun _ _ => rfl, id⟩
  | cons b bs ih =>
    unfold Memory.storeBytes at h
    split_ifs at h with ha
    obtain ⟨h1, h2, h3⟩ := ih h
    refine ⟨fun k hk => ?_, fun x hx => ?_, fun hm => h3 (Memory.write_wf hm ha b)⟩
    · cases k with
      | zero =>
        rw [Nat.add_zero, h2 a (.inl (by omega)), Memory.read_write_same]
        rfl
      | succ k =>
        have := h1 k (by simpa using hk)
        rw [show a + (k + 1) = a + 1 + k by omega, this]
        rfl
    · simp only [List.length_cons] at hx
      rw [h2 x (by omega), Memory.read_write_other m b (by omega)]

/-- A store of bytes that are already there changes nothing. -/
theorem Memory.storeBytes_same {m : Memory} (hm : m.wf) {a : Nat} {bs : List Byte}
    (hfit : bs = [] ∨ a + bs.length ≤ addressSpace)
    (h : ∀ k (hk : k < bs.length), m.read (a + k) = some bs[k]) : m.storeBytes a bs = some m := by
  induction bs generalizing a with
  | nil => rfl
  | cons b bs ih =>
    have h0 : m.read a = some b := h 0 (by simp)
    have hlen : a + (bs.length + 1) ≤ addressSpace := by simpa using hfit
    have hb : a < addressSpace := by omega
    rw [Memory.storeBytes, if_pos hb, Memory.write_read hm h0]
    refine ih (.inr (by omega)) fun k hk => ?_
    have := h (k + 1) (by simpa using hk)
    rw [show a + 1 + k = a + (k + 1) by omega, this]
    rfl

/-- A read of bytes is their list when each has a value. -/
theorem Memory.readBytes_eq_some {m : Memory} {a n : Nat} {bs : List Byte} :
    m.readBytes a n = some bs ↔ bs.length = n ∧ ∀ k (hk : k < bs.length), m.read (a + k) = some bs[k] := by
  induction n generalizing a bs with
  | zero => cases bs <;> simp [Memory.readBytes]
  | succ n ih =>
    unfold Memory.readBytes
    constructor
    · intro h
      split at h
      case h_1 b cs hb hcs =>
        cases h
        obtain ⟨h1, h2⟩ := ih.1 hcs
        refine ⟨by simp [h1], fun k hk => ?_⟩
        cases k with
        | zero => simpa using hb
        | succ k =>
          have := h2 k (by simpa using hk)
          rw [show a + (k + 1) = a + 1 + k by omega, this]
          rfl
      case h_2 => cases h
    · rintro ⟨h1, h2⟩
      cases bs with
      | nil => simp at h1
      | cons b cs =>
        have hb : m.read a = some b := h2 0 (by simp)
        have hcs : m.readBytes (a + 1) n = some cs := ih.2 ⟨by simpa using h1, fun k hk => by
          have := h2 (k + 1) (by simpa using hk)
          rw [show a + 1 + k = a + (k + 1) by omega, this]
          rfl⟩
        simp [hb, hcs]

/-- Reads of bytes agree where each byte agrees. -/
theorem Memory.readBytes_congr {m m' : Memory} {a n : Nat} (h : ∀ x, a ≤ x → x < a + n → m'.read x = m.read x) :
    m'.readBytes a n = m.readBytes a n := by
  induction n generalizing a with
  | zero => rfl
  | succ n ih =>
    unfold Memory.readBytes
    rw [h a (by omega) (by omega), ih fun x h1 h2 => h x (by omega) (by omega)]

/-! ### One 64-bit word (R10, R39) -/

theorem Memory.read64_congr {m m' : Memory} {a : Nat} (h : ∀ x, a ≤ x → x < a + 8 → m'.read x = m.read x) :
    m'.read64 a = m.read64 a := by
  rw [Memory.read64, Memory.readBytes_congr h, Memory.read64]

/-- A 64-bit read gives `v` exactly when each of the eight bytes is that of `v`. -/
theorem Memory.read64_eq_some {m : Memory} {a : Nat} {v : Descriptor} :
    m.read64 a = some v ↔ m.readBytes a 8 = some (bytesLE 8 v.toNat) := by
  unfold Memory.read64
  constructor
  · intro h
    obtain ⟨bs, hbs, rfl⟩ := Option.map_eq_some_iff.1 h
    have hl : bs.length = 8 := (Memory.readBytes_eq_some.1 hbs).1
    have hlt : leNat bs < 2 ^ 64 := by have := leNat_lt bs; rw [hl] at this; exact this
    rw [hbs, BitVec.toNat_ofNat, Nat.mod_eq_of_lt hlt, ← hl, bytesLE_leNat]
  · intro h
    rw [h, Option.map_some, leNat_bytesLE_toNat v (by norm_num), BitVec.ofNat_toNat, BitVec.setWidth_eq]

/-- `MemWrite` succeeds exactly when the eight bytes are in the 32-bit space. -/
theorem Memory.write64_isSome (m : Memory) (a : Nat) (v : Descriptor) :
    (m.write64 a v).isSome = true ↔ a + 8 ≤ addressSpace := by
  rw [Memory.write64, Memory.storeBytes_isSome, length_bytesLE]
  simp [bytesLE]

/-- Everything `MemWrite` does. -/
theorem Memory.write64_spec {m m' : Memory} {a : Nat} {v : Descriptor} (h : m.write64 a v = some m') :
    m'.read64 a = some v ∧ (∀ x, x < a ∨ a + 8 ≤ x → m'.read x = m.read x) ∧ (m.wf → m'.wf) := by
  obtain ⟨h1, h2, h3⟩ := Memory.storeBytes_spec h
  refine ⟨Memory.read64_eq_some.2 (Memory.readBytes_eq_some.2 ⟨by simp, h1⟩), fun x hx => h2 x (by simpa using hx), h3⟩

/-- The same word written again changes nothing (R40). -/
theorem Memory.write64_same {m : Memory} (hm : m.wf) {a : Nat} {v : Descriptor} (hfit : a + 8 ≤ addressSpace)
    (h : m.read64 a = some v) : m.write64 a v = some m :=
  Memory.storeBytes_same hm (.inr (by simpa using hfit))
    (Memory.readBytes_eq_some.1 (Memory.read64_eq_some.1 h)).2

/-- Memory after reset is canonical. -/
theorem reset_mem_wf : State.reset.mem.wf := by decide

end Sys2Proof.Machine
end

