-- ==== Sys2Proof/Laws/State.lean ====
section
/-! SUPPORT. One lemma per field per update of the state, so that no later proof unfolds an update. -/

namespace Sys2Proof.Machine

open Sys2Proof

/-! ### `State.setMem` -/

@[simp] theorem State.setMem_cfg (s : State) (m : Memory) : (s.setMem m).cfg = s.cfg := rfl
@[simp] theorem State.setMem_phase (s : State) (m : Memory) : (s.setMem m).phase = s.phase := rfl
@[simp] theorem State.setMem_fault (s : State) (m : Memory) : (s.setMem m).fault = s.fault := rfl
@[simp] theorem State.setMem_cause (s : State) (m : Memory) : (s.setMem m).cause = s.cause := rfl
@[simp] theorem State.setMem_ptr (s : State) (m : Memory) : (s.setMem m).ptr = s.ptr := rfl
@[simp] theorem State.setMem_ev (s : State) (m : Memory) : (s.setMem m).ev = s.ev := rfl
@[simp] theorem State.setMem_mem (s : State) (m : Memory) : (s.setMem m).mem = m := rfl
@[simp] theorem State.setMem_out (s : State) (m : Memory) : (s.setMem m).out = s.out := rfl
@[simp] theorem State.setMem_input (s : State) (m : Memory) : (s.setMem m).input = s.input := rfl

/-! ### `State.setPtr` -/

@[simp] theorem State.setPtr_cfg (s : State) (p : PointerWord) : (s.setPtr p).cfg = s.cfg := rfl
@[simp] theorem State.setPtr_phase (s : State) (p : PointerWord) : (s.setPtr p).phase = s.phase := rfl
@[simp] theorem State.setPtr_fault (s : State) (p : PointerWord) : (s.setPtr p).fault = s.fault := rfl
@[simp] theorem State.setPtr_cause (s : State) (p : PointerWord) : (s.setPtr p).cause = s.cause := rfl
@[simp] theorem State.setPtr_ptr (s : State) (p : PointerWord) : (s.setPtr p).ptr = p := rfl
@[simp] theorem State.setPtr_ev (s : State) (p : PointerWord) : (s.setPtr p).ev = s.ev := rfl
@[simp] theorem State.setPtr_mem (s : State) (p : PointerWord) : (s.setPtr p).mem = s.mem := rfl
@[simp] theorem State.setPtr_out (s : State) (p : PointerWord) : (s.setPtr p).out = s.out := rfl
@[simp] theorem State.setPtr_input (s : State) (p : PointerWord) : (s.setPtr p).input = s.input := rfl

/-! ### `State.setPhase` -/

@[simp] theorem State.setPhase_cfg (s : State) (p : Phase) : (s.setPhase p).cfg = s.cfg := rfl
@[simp] theorem State.setPhase_phase (s : State) (p : Phase) : (s.setPhase p).phase = p := rfl
@[simp] theorem State.setPhase_fault (s : State) (p : Phase) : (s.setPhase p).fault = s.fault := rfl
@[simp] theorem State.setPhase_cause (s : State) (p : Phase) : (s.setPhase p).cause = s.cause := rfl
@[simp] theorem State.setPhase_ptr (s : State) (p : Phase) : (s.setPhase p).ptr = s.ptr := rfl
@[simp] theorem State.setPhase_ev (s : State) (p : Phase) : (s.setPhase p).ev = s.ev := rfl
@[simp] theorem State.setPhase_mem (s : State) (p : Phase) : (s.setPhase p).mem = s.mem := rfl
@[simp] theorem State.setPhase_out (s : State) (p : Phase) : (s.setPhase p).out = s.out := rfl
@[simp] theorem State.setPhase_input (s : State) (p : Phase) : (s.setPhase p).input = s.input := rfl

/-! ### `State.emit` -/

@[simp] theorem State.emit_cfg (s : State) (e : Event) : (s.emit e).cfg = s.cfg := rfl
@[simp] theorem State.emit_phase (s : State) (e : Event) : (s.emit e).phase = s.phase := rfl
@[simp] theorem State.emit_fault (s : State) (e : Event) : (s.emit e).fault = s.fault := rfl
@[simp] theorem State.emit_cause (s : State) (e : Event) : (s.emit e).cause = s.cause := rfl
@[simp] theorem State.emit_ptr (s : State) (e : Event) : (s.emit e).ptr = s.ptr := rfl
@[simp] theorem State.emit_ev (s : State) (e : Event) : (s.emit e).ev = s.ev ++ [e] := rfl
@[simp] theorem State.emit_mem (s : State) (e : Event) : (s.emit e).mem = s.mem := rfl
@[simp] theorem State.emit_out (s : State) (e : Event) : (s.emit e).out = s.out := rfl
@[simp] theorem State.emit_input (s : State) (e : Event) : (s.emit e).input = s.input := rfl

/-! ### `State.setOut` -/

@[simp] theorem State.setOut_cfg (s : State) (o : Outputs) : (s.setOut o).cfg = s.cfg := rfl
@[simp] theorem State.setOut_phase (s : State) (o : Outputs) : (s.setOut o).phase = s.phase := rfl
@[simp] theorem State.setOut_fault (s : State) (o : Outputs) : (s.setOut o).fault = s.fault := rfl
@[simp] theorem State.setOut_cause (s : State) (o : Outputs) : (s.setOut o).cause = s.cause := rfl
@[simp] theorem State.setOut_ptr (s : State) (o : Outputs) : (s.setOut o).ptr = s.ptr := rfl
@[simp] theorem State.setOut_ev (s : State) (o : Outputs) : (s.setOut o).ev = s.ev := rfl
@[simp] theorem State.setOut_mem (s : State) (o : Outputs) : (s.setOut o).mem = s.mem := rfl
@[simp] theorem State.setOut_out (s : State) (o : Outputs) : (s.setOut o).out = o := rfl
@[simp] theorem State.setOut_input (s : State) (o : Outputs) : (s.setOut o).input = s.input := rfl

/-! ### `State.takeFault` -/

@[simp] theorem State.takeFault_cfg (s : State) (c : ConfigError) : (s.takeFault c).cfg = s.cfg := rfl
@[simp] theorem State.takeFault_phase (s : State) (c : ConfigError) : (s.takeFault c).phase = s.phase := rfl
@[simp] theorem State.takeFault_fault (s : State) (c : ConfigError) : (s.takeFault c).fault = true := rfl
@[simp] theorem State.takeFault_cause (s : State) (c : ConfigError) : (s.takeFault c).cause = .error c := rfl
@[simp] theorem State.takeFault_ptr (s : State) (c : ConfigError) : (s.takeFault c).ptr = s.ptr := rfl
@[simp] theorem State.takeFault_ev (s : State) (c : ConfigError) : (s.takeFault c).ev = s.ev := rfl
@[simp] theorem State.takeFault_mem (s : State) (c : ConfigError) : (s.takeFault c).mem = s.mem := rfl
@[simp] theorem State.takeFault_out (s : State) (c : ConfigError) : (s.takeFault c).out = s.out := rfl
@[simp] theorem State.takeFault_input (s : State) (c : ConfigError) : (s.takeFault c).input = s.input := rfl

/-! ### `State.setInput` -/

@[simp] theorem State.setInput_cfg (s : State) (ps : List Ports) : (s.setInput ps).cfg = s.cfg := rfl
@[simp] theorem State.setInput_phase (s : State) (ps : List Ports) : (s.setInput ps).phase = s.phase := rfl
@[simp] theorem State.setInput_fault (s : State) (ps : List Ports) : (s.setInput ps).fault = s.fault := rfl
@[simp] theorem State.setInput_cause (s : State) (ps : List Ports) : (s.setInput ps).cause = s.cause := rfl
@[simp] theorem State.setInput_ptr (s : State) (ps : List Ports) : (s.setInput ps).ptr = s.ptr := rfl
@[simp] theorem State.setInput_ev (s : State) (ps : List Ports) : (s.setInput ps).ev = s.ev := rfl
@[simp] theorem State.setInput_mem (s : State) (ps : List Ports) : (s.setInput ps).mem = s.mem := rfl
@[simp] theorem State.setInput_out (s : State) (ps : List Ports) : (s.setInput ps).out = s.out := rfl
@[simp] theorem State.setInput_input (s : State) (ps : List Ports) : (s.setInput ps).input = ps := rfl

/-! ### `applyReset` -/

@[simp] theorem applyReset_cfg (p : PointerWord) (s : State) : (applyReset p s).cfg = s.cfg := rfl
@[simp] theorem applyReset_phase (p : PointerWord) (s : State) : (applyReset p s).phase = .unloaded := rfl
@[simp] theorem applyReset_fault (p : PointerWord) (s : State) : (applyReset p s).fault = false := rfl
@[simp] theorem applyReset_cause (p : PointerWord) (s : State) : (applyReset p s).cause = .none := rfl
@[simp] theorem applyReset_ptr (p : PointerWord) (s : State) : (applyReset p s).ptr = p := rfl
@[simp] theorem applyReset_ev (p : PointerWord) (s : State) : (applyReset p s).ev = [] := rfl
@[simp] theorem applyReset_mem (p : PointerWord) (s : State) : (applyReset p s).mem = s.mem := rfl
@[simp] theorem applyReset_out (p : PointerWord) (s : State) : (applyReset p s).out = {} := rfl
@[simp] theorem applyReset_input (p : PointerWord) (s : State) : (applyReset p s).input = [] := rfl

/-! ### Two updates in a row -/

@[simp] theorem State.setOut_setOut (s : State) (o o' : Outputs) : (s.setOut o).setOut o' = s.setOut o' := rfl
@[simp] theorem State.setInput_setInput (s : State) (ps qs : List Ports) :
    (s.setInput ps).setInput qs = s.setInput qs := rfl
@[simp] theorem State.setInput_self (s : State) : s.setInput s.input = s := rfl

end Sys2Proof.Machine
end

