-- ==== Sys2Proof/Laws/Commands.lean ====
section
/-! SUPPORT. One lemma for each shared operation that says once everything it can do. -/

namespace Sys2Proof.Machine

open Sys2Proof

/-! ### Entry stores (R47, R93) -/

/-- Everything a store of one entry does. -/
theorem storeEntry_spec {cfg : Config} {i : Nat} {v : Descriptor} {m m' : Memory} (h : storeEntry cfg i v m = some m') :
    m'.read64 (entryAddress cfg i) = some v ∧
    (∀ a, a < entryAddress cfg i ∨ entryAddress cfg i + 8 ≤ a → m'.read a = m.read a) ∧
    (∀ j, j ≠ i → m'.read64 (entryAddress cfg j) = m.read64 (entryAddress cfg j)) ∧
    (m.wf → m'.wf) := by
  obtain ⟨h1, h2, h3⟩ := Memory.write64_spec h
  refine ⟨h1, h2, fun j hj => Memory.read64_congr fun x hx hx' => h2 x ?_, h3⟩
  unfold entryAddress at *
  omega

/-- An entry store succeeds exactly when its eight bytes are in the 32-bit space. -/
theorem storeEntry_isSome (cfg : Config) (i : Nat) (v : Descriptor) (m : Memory) :
    (storeEntry cfg i v m).isSome = true ↔ entryAddress cfg i + 8 ≤ addressSpace :=
  Memory.write64_isSome m _ v

/-- Under the premise of R7 a store to an entry of the table succeeds. -/
theorem storeEntry_ok {cfg : Config} (hc : cfg.wf) {i : Nat} (hi : i < cfg.gdtEntries) (v : Descriptor) (m : Memory) :
    ∃ m', storeEntry cfg i v m = some m' := by
  have h : (storeEntry cfg i v m).isSome = true := by
    rw [storeEntry_isSome]
    have := hc.2.2.2.1
    unfold Config.tableFits at this
    unfold entryAddress
    omega
  exact Option.isSome_iff_exists.1 h

/-- Everything the stores of consecutive entries do. -/
theorem storeEntries_spec {cfg : Config} {i : Nat} {vs : List Descriptor} {m m' : Memory}
    (h : storeEntries cfg i vs m = some m') :
    (∀ k (hk : k < vs.length), m'.read64 (entryAddress cfg (i + k)) = some vs[k]) ∧
    (∀ a, a < entryAddress cfg i ∨ entryAddress cfg (i + vs.length) ≤ a → m'.read a = m.read a) ∧
    (m.wf → m'.wf) := by
  induction vs generalizing i m with
  | nil =>
    cases h
    exact ⟨fun k hk => absurd hk (by simp), fun _ _ => rfl, id⟩
  | cons v vs ih =>
    unfold storeEntries at h
    split at h
    · cases h
    · rename_i m1 hm1
      obtain ⟨h1, h2, h3⟩ := ih h
      obtain ⟨g1, g2, -, g4⟩ := storeEntry_spec hm1
      refine ⟨fun k hk => ?_, fun a ha => ?_, fun hm => h3 (g4 hm)⟩
      · cases k with
        | zero =>
          rw [Nat.add_zero, Memory.read64_congr (m := m1), g1]
          · rfl
          · intro x hx hx'
            refine h2 x (.inl ?_)
            unfold entryAddress at *
            omega
        | succ k =>
          have := h1 k (by simpa using hk)
          rw [show i + (k + 1) = i + 1 + k by omega, this]
          rfl
      · simp only [List.length_cons] at ha
        unfold entryAddress at *
        rw [h2 a (by omega), g2 a (by omega)]

/-- The stores of consecutive entries succeed exactly when the last byte is in the 32-bit space. -/
theorem storeEntries_isSome (cfg : Config) (i : Nat) (vs : List Descriptor) (m : Memory) :
    (storeEntries cfg i vs m).isSome = true ↔ (vs = [] ∨ entryAddress cfg (i + vs.length) ≤ addressSpace) := by
  induction vs generalizing i m with
  | nil => simp [storeEntries]
  | cons v vs ih =>
    have hone := storeEntry_isSome cfg i v m
    unfold storeEntries
    cases hs : storeEntry cfg i v m with
    | none =>
      rw [hs] at hone
      unfold entryAddress at *
      simp at hone ⊢
      omega
    | some m1 =>
      rw [hs] at hone
      simp only [Option.isSome_some, true_iff] at hone
      simp only [ih]
      unfold entryAddress at *
      cases vs with
      | nil => simp; omega
      | cons w ws => simp; omega

/-! ### The builder (R81) -/

@[simp] theorem length_buildTable (cfg : Config) : (buildTable cfg).length = cfg.gdtEntries := by
  simp [buildTable]

theorem buildTable_getElem (cfg : Config) (k : Nat) (hk : k < (buildTable cfg).length) :
    (buildTable cfg)[k] = tableEntry cfg k := by
  simp [buildTable]

@[simp] theorem tableEntry_zero (cfg : Config) : tableEntry cfg 0 = 0 := by
  simp [tableEntry, idxNull]

/-- Everything the stores of a table load do. -/
theorem storeTable_spec {cfg : Config} {m m' : Memory} (h : storeEntries cfg 0 (buildTable cfg) m = some m') :
    (∀ i, i < cfg.gdtEntries → m'.read64 (entryAddress cfg i) = some (tableEntry cfg i)) ∧
    (∀ a, ¬ inTable cfg a → m'.read a = m.read a) ∧
    (m.wf → m'.wf) := by
  obtain ⟨h1, h2, h3⟩ := storeEntries_spec h
  refine ⟨fun i hi => ?_, fun a ha => h2 a ?_, h3⟩
  · have hi' : i < (buildTable cfg).length := by simpa using hi
    have := h1 i hi'
    rwa [buildTable_getElem, Nat.zero_add] at this
  · rw [length_buildTable]
    unfold entryAddress inTable at *
    omega

/-- Under the premise of R7 the stores of a table load succeed. -/
theorem storeTable_ok {cfg : Config} (hc : cfg.wf) (m : Memory) :
    ∃ m', storeEntries cfg 0 (buildTable cfg) m = some m' := by
  have h : (storeEntries cfg 0 (buildTable cfg) m).isSome = true := by
    rw [storeEntries_isSome, length_buildTable]
    have := hc.2.2.2.1
    unfold Config.tableFits at this
    unfold entryAddress
    exact .inr (by omega)
  exact Option.isSome_iff_exists.1 h

/-! ### The three steps of the sequence (R94, R106, R107), every outcome of each -/

/-- Every outcome of a table load. -/
theorem tableLoadOp_cases (s : State) :
    (s.fault = true ∧ tableLoadOp s = .next (.halted, s)) ∨
    (s.fault = false ∧ s.phase ≠ .unloaded ∧
      tableLoadOp s = .next (.error .orderViolation, s.takeFault .orderViolation)) ∨
    (s.fault = false ∧ s.phase = .unloaded ∧ storeEntries s.cfg 0 (buildTable s.cfg) s.mem = none ∧
      tableLoadOp s = .fault .addressOutsideSpace) ∨
    (s.fault = false ∧ s.phase = .unloaded ∧ ∃ m, storeEntries s.cfg 0 (buildTable s.cfg) s.mem = some m ∧
      tableLoadOp s = .next (.ok, afterTableLoad s m)) := by
  cases hf : s.fault with
  | true => exact .inl ⟨rfl, by simp [tableLoadOp, hf, refuseHalted]⟩
  | false =>
    by_cases hp : s.phase = .unloaded
    · cases hm : storeEntries s.cfg 0 (buildTable s.cfg) s.mem with
      | none => exact .inr (.inr (.inl ⟨rfl, hp, rfl, by simp [tableLoadOp, hf, hp, hm]⟩))
      | some m => exact .inr (.inr (.inr ⟨rfl, hp, m, rfl, by simp [tableLoadOp, hf, hp, hm, succeed]⟩))
    · exact .inr (.inl ⟨rfl, hp, by simp [tableLoadOp, hf, hp, raiseConfigError]⟩)

/-- Every outcome of an install. -/
theorem installTssOp_cases (i : Nat) (a n : Word) (s : State) :
    (s.fault = true ∧ installTssOp i a n s = .next (.halted, s)) ∨
    (s.fault = false ∧ ∃ c, installTssOp i a n s = .next (.error c, s.takeFault c)) ∨
    (s.fault = false ∧ storeEntry s.cfg i (tssDescriptor a n) s.mem = none ∧
      installTssOp i a n s = .fault .addressOutsideSpace) ∨
    (s.fault = false ∧ admitsInstall s.phase = true ∧ 0 < i ∧ i < s.cfg.gdtEntries ∧ n ≠ 0 ∧
      limitRejected s.cfg (n - 1) = false ∧
      ∃ m, storeEntry s.cfg i (tssDescriptor a n) s.mem = some m ∧
        installTssOp i a n s = .next (.ok, (s.setMem m).setPhase .tssInstalled)) := by
  cases hf : s.fault with
  | true => exact .inl ⟨rfl, by rw [installTssOp, hf]; rfl⟩
  | false =>
    rw [installTssOp, hf, if_neg Bool.false_ne_true]
    refine .inr ?_
    have err : ∀ c, (false = false ∧ ∃ c', raiseConfigError c s = .next (.error c', s.takeFault c')) :=
      fun c => ⟨rfl, c, rfl⟩
    split
    · exact .inl (err _)
    · rename_i hp
      split
      · exact .inl (err _)
      · rename_i hi
        split
        · exact .inl (err _)
        · rename_i hn
          split
          · exact .inl (err _)
          · rename_i hl
            refine .inr ?_
            cases hm : storeEntry s.cfg i (tssDescriptor a n) s.mem with
            | none => exact .inl ⟨rfl, rfl, rfl⟩
            | some m =>
              simp only [indexRefused, Bool.or_eq_true, decide_eq_true_eq, not_or, Nat.not_le] at hi
              exact .inr ⟨rfl, by simpa using hp, by omega, hi.2, hn, by simpa [tssFields] using hl, m, rfl, rfl⟩

/-- Every outcome of a task-register load. -/
theorem trLoadOp_cases (s : State) :
    (s.fault = true ∧ trLoadOp s = .next (.halted, s)) ∨
    (s.fault = false ∧ s.phase ≠ .tssInstalled ∧
      trLoadOp s = .next (.error .orderViolation, s.takeFault .orderViolation)) ∨
    (s.fault = false ∧ s.phase = .tssInstalled ∧
      trLoadOp s = .next (.ok, (s.emit (.loadTaskRegister (tssSelector s.cfg))).setPhase .taskRegisterLoaded)) := by
  cases hf : s.fault with
  | true => exact .inl ⟨rfl, by simp [trLoadOp, hf, refuseHalted]⟩
  | false =>
    by_cases hp : s.phase = .tssInstalled
    · exact .inr (.inr ⟨rfl, hp, by simp [trLoadOp, hf, hp, succeed]⟩)
    · exact .inr (.inl ⟨rfl, hp, by simp [trLoadOp, hf, hp, raiseConfigError]⟩)

/-- A sequenced command that answers a next state answers its result with `status` written. -/
theorem complete_next {r : SeqStep} {t : State} (h : complete r = .next t) :
    ∃ c s, r = .next (c, s) ∧ t = s.setOut (.ofStatus c) := by
  cases r with
  | next p => obtain ⟨c, s⟩ := p; cases h; exact ⟨c, s, rfl, rfl⟩
  | fault f => cases h
  | refused f => cases h

@[simp] theorem complete_ok (c : Status) (s : State) : complete (.next (c, s)) = .next (s.setOut (.ofStatus c)) := rfl

end Sys2Proof.Machine
end

