-- ==== Sys2Proof/Laws/Decode.lean ====
section
/-! SUPPORT. The byte image of the ports (log 6) holds every port: reading the image gives the ports back. -/

namespace Sys2Proof

/-- A field above the low part of a concatenation lies in its high part. -/
theorem extractLsb'_append_high {h l : Nat} (hi : BitVec h) (lo : BitVec l) {start len : Nat} (hs : l ≤ start) :
    (hi ++ lo).extractLsb' start len = hi.extractLsb' (start - l) len := by
  apply BitVec.eq_of_getLsbD_eq
  intro i hilt
  have h1 : ¬ start + i < l := by omega
  simp only [BitVec.getLsbD_extractLsb', BitVec.getLsbD_append, hilt, h1, if_false, decide_true, Bool.true_and]
  congr 1
  omega

/-- A field that ends in the low part of a concatenation is the low part's. -/
theorem extractLsb'_append_low {h l : Nat} (hi : BitVec h) (lo : BitVec l) {start len : Nat} (hs : start + len ≤ l) :
    (hi ++ lo).extractLsb' start len = lo.extractLsb' start len := by
  apply BitVec.eq_of_getLsbD_eq
  intro i hilt
  have h1 : start + i < l := by omega
  simp only [BitVec.getLsbD_extractLsb', BitVec.getLsbD_append, hilt, h1, if_true]

/-- The whole of a value, as a field. -/
theorem extractLsb'_whole {w : Nat} (v : BitVec w) : v.extractLsb' 0 w = v := by
  apply BitVec.eq_of_getLsbD_eq
  intro i hi
  simp [hi]

/-- No bit of any port is dropped by the image. -/
theorem Ports.ofImage_image (p : Ports) : Ports.ofImage p.image = p := by
  obtain ⟨op, base, limit, access, flags, descIn, index, rpl, tssIndex, tssAddress, tssSize⟩ := p
  simp only [Ports.ofImage, Ports.image, Ports.mk.injEq]
  refine ⟨?_, ?_, ?_, ?_, ?_, ?_, ?_, ?_, ?_, ?_, ?_⟩
  all_goals
    repeat rw [extractLsb'_append_high _ _ (by decide)]
    repeat rw [extractLsb'_append_low _ _ (by decide)]
    exact extractLsb'_whole _

/-- The 32 bytes of a command are the image of its ports. -/
theorem image_of_encodeBytes (i : Instr) :
    Ports.ofImage (BitVec.ofNat 256 (leNat (encodeBytes i))) = encodePorts i := by
  rw [encodeBytes, leNat_bytesLE_toNat _ (by norm_num), BitVec.ofNat_toNat, BitVec.setWidth_eq, Ports.ofImage_image]

end Sys2Proof
end

