-- ==== Sys2Proof/Laws/Inversion.lean ====
section
/-! SUPPORT. Inversion: what each sequenced command, any pure command and any step can have done when it answers a next
state. Later proofs cite these and do not unfold the meanings. -/

namespace Sys2Proof.Machine

open Sys2Proof

/-- Everything an `INSTALL_TSS` that answers a next state can have done (R94). -/
theorem execInstallTss_next {k : BitVec 13} {a n : Word} {s t : State} (h : exec (.installTss k a n) s = .next t) :
    (s.fault = true ∧ t = s.setOut (.ofStatus .halted)) ∨
    (s.fault = false ∧ ∃ c, t = (s.takeFault c).setOut (.ofStatus (.error c))) ∨
    (s.fault = false ∧ admitsInstall s.phase = true ∧ 0 < k.toNat ∧ k.toNat < s.cfg.gdtEntries ∧ n ≠ 0 ∧
      limitRejected s.cfg (n - 1) = false ∧
      ∃ m, storeEntry s.cfg k.toNat (tssDescriptor a n) s.mem = some m ∧
        t = ((s.setMem m).setPhase .tssInstalled).setOut (.ofStatus .ok)) := by
  obtain ⟨c, s', hr, rfl⟩ := complete_next h
  rcases installTssOp_cases k.toNat a n s with
    ⟨hf, e⟩ | ⟨hf, c', e⟩ | ⟨hf, _, e⟩ | ⟨hf, h1, h2, h3, h4, h5, m, hm, e⟩ <;> rw [e] at hr <;> cases hr
  · exact .inl ⟨hf, rfl⟩
  · exact .inr (.inl ⟨hf, _, rfl⟩)
  · exact .inr (.inr ⟨hf, h1, h2, h3, h4, h5, m, hm, rfl⟩)

/-- Everything a `TABLE_LOAD` that answers a next state can have done (R106). -/
theorem execTableLoad_next {s t : State} (h : exec .tableLoad s = .next t) :
    (s.fault = true ∧ t = s.setOut (.ofStatus .halted)) ∨
    (s.fault = false ∧ s.phase ≠ .unloaded ∧
      t = (s.takeFault .orderViolation).setOut (.ofStatus (.error .orderViolation))) ∨
    (s.fault = false ∧ s.phase = .unloaded ∧ ∃ m, storeEntries s.cfg 0 (buildTable s.cfg) s.mem = some m ∧
      t = (afterTableLoad s m).setOut (.ofStatus .ok)) := by
  obtain ⟨c, s', hr, rfl⟩ := complete_next h
  rcases tableLoadOp_cases s with
    ⟨hf, e⟩ | ⟨hf, c', e⟩ | ⟨hf, _, _, e⟩ | ⟨hf, h1, m, hm, e⟩ <;> rw [e] at hr <;> cases hr
  · exact .inl ⟨hf, rfl⟩
  · exact .inr (.inl ⟨hf, c', rfl⟩)
  · exact .inr (.inr ⟨hf, h1, m, hm, rfl⟩)

/-- Everything a `TR_LOAD` that answers a next state can have done (R107). -/
theorem execTrLoad_next {s t : State} (h : exec .trLoad s = .next t) :
    (s.fault = true ∧ t = s.setOut (.ofStatus .halted)) ∨
    (s.fault = false ∧ s.phase ≠ .tssInstalled ∧
      t = (s.takeFault .orderViolation).setOut (.ofStatus (.error .orderViolation))) ∨
    (s.fault = false ∧ s.phase = .tssInstalled ∧
      t = ((s.emit (.loadTaskRegister (tssSelector s.cfg))).setPhase .taskRegisterLoaded).setOut (.ofStatus .ok)) := by
  obtain ⟨c, s', hr, rfl⟩ := complete_next h
  rcases trLoadOp_cases s with ⟨hf, e⟩ | ⟨hf, c', e⟩ | ⟨hf, h1, e⟩ <;> rw [e] at hr <;> cases hr
  · exact .inl ⟨hf, rfl⟩
  · exact .inr (.inl ⟨hf, c', rfl⟩)
  · exact .inr (.inr ⟨hf, h1, rfl⟩)

/-- Everything an `INIT` that answers a next state can have done (R113). -/
theorem execInit_next {a n : Word} {s t : State} (h : exec (.init a n) s = .next t) :
    (s.fault = true ∧ t = s.setOut (.ofStatus .halted)) ∨
    (s.fault = false ∧ s.phase ≠ .unloaded ∧
      t = (s.takeFault .orderViolation).setOut (.ofStatus (.error .orderViolation))) ∨
    (s.fault = false ∧ s.phase = .unloaded ∧ ∃ m, storeEntries s.cfg 0 (buildTable s.cfg) s.mem = some m ∧
      ((∃ c, installTssOp s.cfg.idxTss a n (afterTableLoad s m) = .next (.error c, (afterTableLoad s m).takeFault c) ∧
          t = ((afterTableLoad s m).takeFault c).setOut (.ofStatus (.error c))) ∨
       (0 < s.cfg.idxTss ∧ s.cfg.idxTss < s.cfg.gdtEntries ∧ n ≠ 0 ∧
        limitRejected s.cfg (n - 1) = false ∧ ∃ m2, storeEntry s.cfg s.cfg.idxTss (tssDescriptor a n) m = some m2 ∧
          t = (((((afterTableLoad s m).setMem m2).setPhase .tssInstalled).emit
            (.loadTaskRegister (tssSelector s.cfg))).setPhase .taskRegisterLoaded).setOut (.ofStatus .ok)))) := by
  obtain ⟨c, s', hr, rfl⟩ := complete_next h
  cases hf : s.fault with
  | true => rw [initOp, hf] at hr; cases hr; exact .inl ⟨rfl, rfl⟩
  | false =>
    by_cases hp : s.phase = .unloaded
    · refine .inr (.inr ⟨rfl, hp, ?_⟩)
      rcases tableLoadOp_cases s with ⟨hf', e⟩ | ⟨hf, c', e⟩ | ⟨hf, _, _, e⟩ | ⟨hf, h1, m, hm, e⟩
      · rw [hf] at hf'; cases hf'
      · exact absurd hp c'
      · simp only [initOp, hf, hp, e, Bool.false_eq_true, if_false, ne_eq, not_true] at hr; cases hr
      · refine ⟨m, hm, ?_⟩
        simp only [initOp, hf, hp, e, Bool.false_eq_true, if_false, ne_eq, not_true] at hr
        rcases installTssOp_cases s.cfg.idxTss a n (afterTableLoad s m) with
          ⟨hf', e⟩ | ⟨_, c', e⟩ | ⟨_, _, e⟩ | ⟨_, h1, h2, h3, h4, h5, m2, hm2, e⟩
        · exact absurd (show s.fault = true from hf') (by simp [hf])
        · rw [e] at hr; cases hr; exact .inl ⟨_, e, rfl⟩
        · rw [e] at hr; cases hr
        · rw [e] at hr
          refine .inr ⟨h2, h3, h4, h5, m2, hm2, ?_⟩
          have hf2 : (afterTableLoad s m).fault = false := hf
          rcases trLoadOp_cases (((afterTableLoad s m).setMem m2).setPhase .tssInstalled) with
            ⟨hf3, -⟩ | ⟨-, hp3, -⟩ | ⟨-, -, e3⟩
          · exact absurd (show s.fault = true from hf3) (by simp [hf])
          · exact absurd rfl hp3
          · have hr2 := e3.symm.trans hr
            cases hr2; rfl
    · simp only [initOp, hf, hp, Bool.false_eq_true, if_false, ne_eq, not_false_eq_true, if_true,
        raiseConfigError] at hr
      cases hr
      exact .inr (.inl ⟨rfl, hp, rfl⟩)

/-- A pure command changes nothing but the output ports (R79). -/
theorem execPure_next {i : Instr} {s t : State} (hp : i.isPure = true) (h : exec i s = .next t) :
    ∃ o, t = s.setOut o := by
  cases i with
  | encode b l a f =>
    simp only [exec, execEncode] at h
    split at h <;> cases h
    · exact ⟨_, rfl⟩
    · exact ⟨_, rfl⟩
  | decode d => cases h; exact ⟨_, rfl⟩
  | selector => cases h; exact ⟨_, rfl⟩
  | tableLoad => cases hp
  | installTss => cases hp
  | trLoad => cases hp
  | init => cases hp

/-- Everything a step that answers a next state can have done. -/
theorem step_next {s t : State} (h : step s = .next t) :
    (s.input = [] ∧ t = s) ∨ (∃ p rest, s.input = p :: rest ∧
      ((∃ i, decodePorts p = .ok i ∧ exec i (s.setInput rest) = .next t) ∨
       (∃ r, decodePorts p = .error r ∧ t = (s.setInput rest).setOut (.ofStatus .reservedOp)))) := by
  unfold step at h
  split at h
  · rename_i hi; cases h; exact .inl ⟨hi, rfl⟩
  · rename_i p rest hi
    refine .inr ⟨p, rest, hi, ?_⟩
    split at h
    · rename_i i hd; exact .inl ⟨i, hd, h⟩
    · rename_i r hd; cases h; exact .inr ⟨r, hd, by cases r; rfl⟩

end Sys2Proof.Machine
end

