-- ==== Sys2Proof/Laws/Layout.lean ====
section
/-! SUPPORT. The named positions of the layout as numbers, for simp, and the bits of a placed sub-field. -/

namespace Sys2Proof.Layout

@[simp] theorem limitLowPos_eq : limitLowPos = 0 := rfl
@[simp] theorem baseLowPos_eq : baseLowPos = 16 := rfl
@[simp] theorem baseMidPos_eq : baseMidPos = 32 := rfl
@[simp] theorem accessPos_eq : accessPos = 40 := rfl
@[simp] theorem limitHighPos_eq : limitHighPos = 48 := rfl
@[simp] theorem flagsPos_eq : flagsPos = 52 := rfl
@[simp] theorem baseHighPos_eq : baseHighPos = 56 := rfl
@[simp] theorem presentPos_eq : presentPos = 7 := rfl
@[simp] theorem dplPos_eq : dplPos = 5 := rfl
@[simp] theorem systemPos_eq : systemPos = 4 := rfl
@[simp] theorem typePos_eq : typePos = 0 := rfl
@[simp] theorem granularityPos_eq : granularityPos = 3 := rfl
@[simp] theorem operandSizePos_eq : operandSizePos = 2 := rfl
@[simp] theorem longPos_eq : longPos = 1 := rfl
@[simp] theorem availablePos_eq : availablePos = 0 := rfl
@[simp] theorem pointerSizePos_eq : pointerSizePos = 0 := rfl
@[simp] theorem pointerAddressPos_eq : pointerAddressPos = 16 := rfl
@[simp] theorem selectorIndexPos_eq : selectorIndexPos = 3 := rfl

end Sys2Proof.Layout

namespace Sys2Proof.Machine

open Sys2Proof

/-- A placed sub-field has its own bits from its position up, and zeros elsewhere. -/
theorem getLsbD_place {w : Nat} (pos : Nat) (v : BitVec w) (i : Nat) :
    (place pos v).getLsbD i = (decide (i < 64) && decide (pos ≤ i) && v.getLsbD (i - pos)) := by
  simp only [place, BitVec.getLsbD_shiftLeft, BitVec.getLsbD_setWidth]
  by_cases h1 : i < 64
  · have h3 : i - pos < 64 := by omega
    by_cases h2 : i < pos
    · have : ¬ pos ≤ i := by omega
      simp [h1, h2, this]
    · have : pos ≤ i := by omega
      simp [h1, h2, h3, this]
  · simp [h1]

end Sys2Proof.Machine
end

