-- ==== Sys2Proof/Laws/PerInstr.lean ====
section
/-! SUPPORT. Families of statements about every command as syntax, one lemma per constructor. -/

namespace Sys2Proof.Laws

open Sys2Proof

/-- What a command looks like on the ports: its own code on `op` (R64), the ports it does not read at zero (R60), and the
decoder reads it back. -/
def PortForm.Statement (i : Instr) : Prop :=
  (encodePorts i).op = i.opcode ∧ (encodePorts i).canonical ∧ decodePorts (encodePorts i) = .ok i

theorem PortForm.encode (base limit : Word) (access flags : Byte) :
    PortForm.Statement (.encode base limit access flags) := ⟨rfl, rfl, rfl⟩

theorem PortForm.decode (d : Descriptor) : PortForm.Statement (.decode d) := ⟨rfl, rfl, rfl⟩

theorem PortForm.selector (index : BitVec 13) (rpl : BitVec 2) : PortForm.Statement (.selector index rpl) :=
  ⟨rfl, rfl, rfl⟩

theorem PortForm.tableLoad : PortForm.Statement .tableLoad := ⟨rfl, rfl, rfl⟩

theorem PortForm.installTss (k : BitVec 13) (a n : Word) : PortForm.Statement (.installTss k a n) := ⟨rfl, rfl, rfl⟩

theorem PortForm.trLoad : PortForm.Statement .trLoad := ⟨rfl, rfl, rfl⟩

theorem PortForm.init (a n : Word) : PortForm.Statement (.init a n) := ⟨rfl, rfl, rfl⟩

end Sys2Proof.Laws
end

