-- ==== Sys2Proof/Laws/Runs.lean ====
section
/-! SUPPORT. Runs of the machine, one step at a time. -/

namespace Sys2Proof.Machine

open Sys2Proof

/-- A run of one step more, on any machine of the host's interface. -/
theorem run_succ (M : Host.Core) (k : Nat) (s : M.State) :
    M.run (k + 1) s =
      match M.step s with
      | .next s' => M.run k s'
      | .fault r => .fault r
      | .refused r => .refused r := by
  cases h : M.step s <;> simp only [Host.Core.run, h]

theorem core_run_zero (s : State) : Sys2Proof.core.run 0 s = .next s := rfl

/-- A run of one step more answers a next state exactly when the step does and the rest of the run does. -/
theorem core_run_succ {k : Nat} {s t : State} :
    Sys2Proof.core.run (k + 1) s = .next t ↔ ∃ s', step s = .next s' ∧ Sys2Proof.core.run k s' = .next t := by
  have h := run_succ Sys2Proof.core k s
  have e : Sys2Proof.core.step s = step s := rfl
  rw [e] at h
  rw [h]
  cases step s with
  | next s' => exact ⟨fun g => ⟨s', rfl, g⟩, fun ⟨u, hu, g⟩ => by cases hu; exact g⟩
  | fault f => exact ⟨fun g => (by cases g), fun ⟨u, hu, _⟩ => (by cases hu)⟩
  | refused r => exact ⟨fun g => (by cases g), fun ⟨u, hu, _⟩ => (by cases hu)⟩

/-- A command leaves the commands still to be issued as they are (R143, log 5). -/
theorem exec_input {i : Instr} {s t : State} (h : exec i s = .next t) : t.input = s.input := by
  cases hi : i.isPure with
  | true => obtain ⟨o, rfl⟩ := execPure_next hi h; rfl
  | false =>
    cases i with
    | encode => cases hi
    | decode => cases hi
    | selector => cases hi
    | tableLoad => rcases execTableLoad_next h with ⟨_, rfl⟩ | ⟨_, _, rfl⟩ | ⟨_, _, m, _, rfl⟩ <;> rfl
    | installTss k a n =>
      rcases execInstallTss_next h with ⟨_, rfl⟩ | ⟨_, c, rfl⟩ | ⟨_, _, _, _, _, _, m, _, rfl⟩ <;> rfl
    | trLoad => rcases execTrLoad_next h with ⟨_, rfl⟩ | ⟨_, _, rfl⟩ | ⟨_, _, rfl⟩ <;> rfl
    | init a n =>
      rcases execInit_next h with ⟨_, rfl⟩ | ⟨_, _, rfl⟩ | ⟨_, _, m, _, ⟨c, _, rfl⟩ | ⟨_, _, _, _, m2, _, rfl⟩⟩ <;> rfl

theorem issue_of_input {is : List Instr} {s : State} (h : s.input = is.map encodePorts) : issue is s = s := by
  unfold issue; rw [← h]

/-- Issuing no command: the run ends at once. -/
theorem runCommands_nil {s t : State} : runCommands [] s = .next t ↔ t = { s with input := [] } :=
  ⟨fun h => by cases h; rfl, fun h => by rw [h]; rfl⟩

/-- Issuing one command more: it runs first, then the rest. -/
theorem runCommands_cons {i : Instr} {is : List Instr} {s t : State} :
    runCommands (i :: is) s = .next t ↔
      ∃ s', exec i { s with input := is.map encodePorts } = .next s' ∧ runCommands is s' = .next t := by
  have hd : decodePorts (encodePorts i) = .ok i := by cases i <;> rfl
  have hs : step (issue (i :: is) s) = exec i { s with input := is.map encodePorts } := by
    show (match decodePorts (encodePorts i) with
      | .ok j => exec j ((issue (i :: is) s).setInput (is.map encodePorts))
      | .error r => .next (reject r ((issue (i :: is) s).setInput (is.map encodePorts)))) = _
    rw [hd]
    rfl
  refine Iff.trans (core_run_succ (k := is.length) (s := issue (i :: is) s)) ?_
  rw [hs]
  constructor
  · rintro ⟨u, hu, h⟩
    exact ⟨u, hu, by unfold runCommands; rw [issue_of_input (exec_input hu)]; exact h⟩
  · rintro ⟨u, hu, h⟩
    unfold runCommands at h
    rw [issue_of_input (exec_input hu)] at h
    exact ⟨u, hu, h⟩

end Sys2Proof.Machine
end

