-- ==== Sys2Proof/Tests/Slice0.lean ====
section
/-! SUPPORT. The model's own tests. The expected values are the rows V, S and F of `95_test_vectors.md`, or worked out by
hand from the rule named; none is the model's own answer. Then, for each statement with hypotheses, a witness: concrete
states and operands that meet them all together, one for each clause, at the ends of its range. -/

namespace Sys2Proof.Tests

open Sys2Proof Sys2Proof.Machine

/-! ### The states the tests start from -/

/-- The configuration of the test vectors: the values of R6 and R8, the table where V39 has it. -/
def conf : Config := ⟨6, 1, 2, 3, 4, 5, 0x00100800, 0x00123456, 104, .reject, .low⟩

/-- The same with the other value of each policy. -/
def conf' : Config := { conf with limitPolicy := .truncate, flagsAlign := .high }

/-- The largest table there is, ending with the address space (R6, R7), the TSS Record in the last bytes below it. -/
def confTop : Config := ⟨8192, 8187, 8188, 8189, 8190, 8191, 0xFFFF0000, 0xFFFEFF98, 104, .reject, .low⟩

/-- A TSS Record of no byte, at address 0, below a table at address 0. -/
def confLow : Config := { conf with tableAddr := 0, tssAddr := 0, tssSize := 0 }

/-- Bytes at consecutive addresses. -/
def cellsAt (a : Nat) (bs : List Byte) : Memory := (List.range bs.length).map fun k => (a + k, bs.getD k 0)

/-- Entries 0 to 4 as V39 prints them. -/
def entries0to4 : List Byte :=
  [0x00, 0x00, 0x00, 0x00, 0x00, 0x00, 0x00, 0x00] ++ [0xFF, 0xFF, 0x00, 0x00, 0x00, 0x9A, 0xCF, 0x00] ++
  [0xFF, 0xFF, 0x00, 0x00, 0x00, 0x92, 0xCF, 0x00] ++ [0xFF, 0xFF, 0x00, 0x00, 0x00, 0xFA, 0xCF, 0x00] ++
  [0xFF, 0xFF, 0x00, 0x00, 0x00, 0xF2, 0xCF, 0x00]

/-- The table of V39. -/
def table39 : Memory := cellsAt 0x00100800 (entries0to4 ++ [0x00, 0x00, 0x00, 0x00, 0x00, 0x00, 0x00, 0x00])

/-- The table of V39 with the entry of V43. -/
def table43 : Memory := cellsAt 0x00100800 (entries0to4 ++ [0x67, 0x00, 0x56, 0x34, 0x12, 0xE9, 0x00, 0x00])

/-- After reset. -/
def fresh : State := { State.reset with cfg := conf }

/-- After V39. -/
def loaded : State :=
  { fresh with mem := table39, ptr := 0x00100800002F, ev := [.loadDescriptorTable 0x00100800002F], phase := .tableLoaded,
               out := { status := some .ok } }

/-- After V39 and V43. -/
def installed : State := { loaded with mem := table43, phase := .tssInstalled }

/-- After V39, V43 and V58, or V63. -/
def running : State :=
  { installed with ev := [.loadDescriptorTable 0x00100800002F, .loadTaskRegister 0x0028], phase := .taskRegisterLoaded }

/-- A unit whose first fault was an order violation. -/
def faulted : State := { loaded with fault := true, cause := .error .orderViolation }

/-- A command on the ports with every other port zero. -/
def portsOf (op : BitVec 4) : Ports := { Ports.zero with op := op }

theorem next_of_nextState {o : Host.Outcome State Fault Refusal} {t : State} (h : nextState o = some t) : o = .next t := by
  cases o with
  | next s => exact congrArg Host.Outcome.next (Option.some.inj h)
  | fault f => cases h
  | refused r => cases h

/-! ### Each check of the premise refuses an ill-formed term (R6, R7) -/

theorem test_wf_chosen : Config.chosen.wf := by decide
theorem test_wf_conf : conf.wf ∧ conf'.wf := by decide
theorem test_wf_largest_table : confTop.wf := by decide
theorem test_wf_lowest_table : confLow.wf := by decide
theorem test_wf_refuses_equal_indices : ¬ { conf with idxKdata := 1 }.indicesDistinct := by decide
theorem test_wf_refuses_null_index : ¬ { conf with idxTss := 0 }.indicesDistinct := by decide
theorem test_wf_refuses_index_out_of_range : ¬ { conf with idxTss := 6 }.indicesInRange := by decide
theorem test_wf_refuses_too_many_entries : ¬ { conf with gdtEntries := 8193 }.entriesFit := by decide
theorem test_wf_refuses_table_past_the_end : ¬ { conf with tableAddr := 0xFFFFFFD1 }.tableFits := by decide
theorem test_wf_refuses_tss_past_the_end : ¬ { conf with tssAddr := 0xFFFFFF99 }.tssFits := by decide
theorem test_wf_refuses_overlap : ¬ { conf with tssAddr := 0x0010082F }.regionsApart := by decide
/-- Log 24: an empty record at either end of the table is apart from it, one strictly inside is not. -/
theorem test_wf_empty_record :
    { conf with tssAddr := 0x00100800, tssSize := 0 }.regionsApart ∧
    { conf with tssAddr := 0x00100830, tssSize := 0 }.regionsApart ∧
    ¬ { conf with tssAddr := 0x00100801, tssSize := 0 }.regionsApart ∧
    ¬ { conf with tssAddr := 0x0010082F, tssSize := 0 }.regionsApart := by decide
theorem test_ports_refuses_unread_port : ¬ { portsOf 4 with rpl := 1 }.canonical := by decide
theorem test_memory_refuses_falling_addresses : ¬ Memory.wf [(1, 0x00), (0, 0x00)] := by decide
theorem test_memory_refuses_repeated_address : ¬ Memory.wf [(1, 0x00), (1, 0x00)] := by decide
theorem test_memory_refuses_address_outside : ¬ Memory.wf [(4294967296, 0x00)] := by decide

/-! ### Decoding: every command as bytes, written out port by port in the order of R13 -/

theorem test_decode_encode_command :
    decodeBytes ([0x01] ++ [0x78, 0x56, 0x34, 0x12] ++ [0xDE, 0xBC, 0x0A, 0x00] ++ [0x5A] ++ [0x09]) =
      .ok (.encode 0x12345678 0xABCDE 0x5A 0x09) := by rfl

theorem test_decode_decode_command :
    decodeBytes (0x02 :: List.replicate 10 0x00 ++ [0x11, 0x22, 0x33, 0x44, 0x55, 0x66, 0x77, 0x88]) =
      .ok (.decode 0x8877665544332211) := by rfl

theorem test_decode_selector_command :
    decodeBytes (0x03 :: List.replicate 18 0x00 ++ [0xFF, 0x1F] ++ [0x03]) = .ok (.selector 8191 3) := by rfl

theorem test_decode_table_load_command : decodeBytes [0x04] = .ok .tableLoad := by rfl

theorem test_decode_install_tss_command :
    decodeBytes (0x05 :: List.replicate 21 0x00 ++ [0x05, 0x00] ++ [0x56, 0x34, 0x12, 0x00] ++ [0x68, 0x00, 0x00, 0x00]) =
      .ok (.installTss 5 0x00123456 104) := by rfl

theorem test_decode_tr_load_command : decodeBytes [0x06] = .ok .trLoad := by rfl

theorem test_decode_init_command :
    decodeBytes (0x07 :: List.replicate 23 0x00 ++ [0x00, 0x10, 0x00, 0x00] ++ [0x01, 0x00, 0x10, 0x00]) =
      .ok (.init 0x00001000 0x100001) := by rfl

/-- V73, V74: the nine reserved codes. -/
theorem test_decode_reserved_codes :
    ∀ w ∈ [0x00, 0x08, 0x09, 0x0A, 0x0B, 0x0C, 0x0D, 0x0E, 0x0F], decodeTableWord 8 w = none := by decide

/-- R69: the rule's own lines. -/
theorem test_text_form :
    (Instr.encode 0 0xFFFFF 0x9A 0x0C).text = "ENCODE base=0x0 limit=0xFFFFF access=0x9A flags=0x0C" ∧
    (Instr.decode 0x00CF9A000000FFFF).text = "DECODE desc_in=0x00CF9A000000FFFF" ∧
    (Instr.selector 1 0).text = "SELECTOR index=1 rpl=0" ∧
    (Instr.installTss 5 0x00123456 104).text = "INSTALL_TSS tss_index=5 tss_address=0x00123456 tss_size=104" := by
  decide +kernel

/-- The host's word is the command the next step runs (R64): `TR_LOAD` after V43 emits. -/
theorem test_fetch_word_runs : nextState (step (installed.withFetchWord 8 0x06)) = some running := by decide

/-! ### One step of each command -/

/-- V3: each hex digit of the operands once in the result. -/
theorem test_encode_v3 :
    nextState (exec (.encode 0x12345678 0xABCDE 0x5A 0x09) fresh) =
      some { fresh with out := { status := some .ok, descOut := some 0x129A5A345678BCDE } } := by decide

/-- V10, and V12 under `TRUNCATE`: the smallest rejected limit, and a limit cut to 20 bits. -/
theorem test_encode_v10_v12 :
    nextState (exec (.encode 0 0x100000 0x92 0x0C) loaded) =
      some { loaded with out := { status := some (.error .limitOverflow) } } ∧
    nextState (exec (.encode 0 0x123456 0x92 0xC0) { loaded with cfg := conf' }) =
      some { loaded with cfg := conf', out := { status := some .ok, descOut := some 0x00C2920000003456 } } := by decide

/-- V21 under `LOW` and under `HIGH`. -/
theorem test_decode_v21 :
    nextState (exec (.decode 0x8877665544332211) fresh) =
      some { fresh with out := ⟨some .ok, none, some 0x88554433, some 0x00072211, some 0x66, some 0x07, none⟩ } ∧
    nextState (exec (.decode 0x8877665544332211) { fresh with cfg := conf' }) =
      some { fresh with cfg := conf',
                        out := ⟨some .ok, none, some 0x88554433, some 0x00072211, some 0x66, some 0x70, none⟩ } := by
  decide

/-- V33 and V37, and V72: a pure command runs on a faulted unit. -/
theorem test_selector_v33_v37_v72 :
    nextState (exec (.selector 2 3) faulted) =
      some { faulted with out := { status := some .ok, selectorOut := some 0x0013 } } ∧
    nextState (exec (.selector 8191 3) fresh) =
      some { fresh with out := { status := some .ok, selectorOut := some 0xFFFB } } := by decide

/-- V39. -/
theorem test_table_load_v39 : nextState (exec .tableLoad fresh) = some loaded := by decide

/-- V41: a second load writes nothing. -/
theorem test_table_load_v41 :
    nextState (exec .tableLoad installed) =
      some { installed with fault := true, cause := .error .orderViolation,
                            out := { status := some (.error .orderViolation) } } := by decide

/-- V43. -/
theorem test_install_tss_v43 : nextState (exec (.installTss 5 0x00123456 104) loaded) = some installed := by decide +kernel

/-- V57: the index is checked before the size. -/
theorem test_install_tss_v57 :
    nextState (exec (.installTss 0 0 0) loaded) =
      some { loaded with fault := true, cause := .error .indexOutOfRange,
                         out := { status := some (.error .indexOutOfRange) } } := by decide

/-- V58. -/
theorem test_tr_load_v58 : nextState (exec .trLoad installed) = some running := by decide

/-- V60. -/
theorem test_tr_load_v60 :
    nextState (exec .trLoad loaded) =
      some { loaded with fault := true, cause := .error .orderViolation,
                         out := { status := some (.error .orderViolation) } } := by decide

/-- V63. -/
theorem test_init_v63 : nextState (exec (.init 0x00123456 104) fresh) = some running := by decide

/-- V64: the effects of the first step stay. -/
theorem test_init_v64 :
    nextState (exec (.init 0x00001000 0) fresh) =
      some { loaded with fault := true, cause := .error .badTssSize, out := { status := some (.error .badTssSize) } } := by
  decide

/-- V75: a reserved code on a faulted unit is `ReservedOp`, not `Halted`. -/
theorem test_reserved_v75 :
    nextState (step (faulted.withFetchWord 8 0x0F)) =
      some { faulted with out := { status := some .reservedOp } } := by decide

/-- V26, V27 and V28: the span of three descriptors. -/
theorem test_span_v26_v27_v28 :
    span 0x0080920010000000 = (0x1000, 0x1FFF) ∧ span 0x0000E91234560067 = (0x123456, 0x1234BD) ∧ span 0 = (0, 0) := by
  decide

/-- R90: the rule's table. -/
theorem test_selector_constants_r90 :
    selectorConstants conf =
      [(0, 0x00, 0x03), (1, 0x08, 0x0B), (2, 0x10, 0x13), (3, 0x18, 0x1B), (4, 0x20, 0x23), (5, 0x28, 0x2B)] := by decide

/-- V40: the six bytes of the pointer. -/
theorem test_pointer_v40 :
    pointerBytes (makePointer { conf with tableAddr := 0xC0104000 }) = [0x2F, 0x00, 0x00, 0x40, 0x10, 0xC0] := by decide

/-- R44: after V43 the processor's fetch through the address it was handed reads the entry of V43. -/
theorem test_fetch_after_install : fetchDescriptor installed 0x0028 = some 0x0000E91234560067 := by decide

/-- R28: the ring-0 stack pointer is the four bytes at offset 4 of the record. -/
theorem test_tss_record_esp0 :
    TssField.esp0.read { fresh with mem := cellsAt 0x0012345A [0x78, 0x56, 0x34, 0x12] } = some 0x12345678 := by decide

/-- R28: the fields with their reserved halves follow each other without a gap and fill 104 bytes. -/
theorem test_tss_record_tiles :
    (TssField.all.zip TssField.all.tail).all (fun (f, g) => f.offset + f.slot == g.offset) = true ∧
    TssField.all.head? = some .link ∧ TssField.link.offset = 0 ∧
    TssField.ioMapBase.offset + TssField.ioMapBase.slot = 104 := by decide

/-- R28: of the word `0x8001` at 0x64 bit 0 is the trap flag and the rest reserved; of the slot at 8 the high half is. -/
theorem test_tss_record_trap_flag_and_reserved :
    ({ fresh with mem := cellsAt 0x001234BA [0x01, 0x80] } : State).tssTrapFlag = some 1 ∧
    ({ fresh with mem := cellsAt 0x001234BA [0x01, 0x80] } : State).tssTrapReserved = some 0x4000 ∧
    TssField.ss0.readReserved { fresh with mem := cellsAt 0x0012345E [0x10, 0x00, 0xCD, 0xAB] } = some 0xABCD := by
  decide

/-! ### Witnesses: concrete states and operands that meet the hypotheses of each statement -/

/-- The word of the statement's worked example is made of the eight bytes named. -/
theorem witness_UnpackReversesTheSplit :
    bytesLE 8 (0x8877665544332211 : BitVec 64).toNat = [0x11, 0x22, 0x33, 0x44, 0x55, 0x66, 0x77, 0x88] := by decide

/-- A legal configuration, and an index the configuration does not name: 0, and in the largest table also 8186. -/
theorem witness_BuilderEntries :
    conf.wf ∧ 0 < conf.gdtEntries ∧ conf.idxTss < conf.gdtEntries ∧
    conf.idxTss ∉ [conf.idxKcode, conf.idxKdata, conf.idxUcode, conf.idxUdata] ∧
    confTop.wf ∧ 8186 < confTop.gdtEntries ∧
    8186 ∉ [confTop.idxKcode, confTop.idxKdata, confTop.idxUcode, confTop.idxUdata] := by decide

theorem witness_FlatSegmentsSpanTheSpace :
    conf.wf ∧ 1 ∈ [conf.idxKcode, conf.idxKdata, conf.idxUcode, conf.idxUdata] ∧
    confTop.wf ∧ 8190 ∈ [confTop.idxKcode, confTop.idxKdata, confTop.idxUcode, confTop.idxUdata] := by decide

/-- The smallest and the largest table. -/
theorem witness_PointerHoldsSizeAndAddress :
    conf.wf ∧ conf.gdtEntries = 6 ∧ confTop.wf ∧ confTop.gdtEntries = 8192 := by decide

theorem witness_TssSelectorHasRingZero : conf.wf ∧ conf.idxTss = 5 ∧ confTop.wf ∧ confTop.idxTss = 8191 := by decide

/-- A command on canonical ports, and one on ports that are not canonical. -/
theorem witness_DecodedPortsEncodeBack :
    decodePorts (portsOf 4) = .ok .tableLoad ∧ (portsOf 4).canonical ∧
    decodePorts { portsOf 4 with base := 1 } = .ok .tableLoad := ⟨rfl, by decide, rfl⟩

/-- Every clause: the seven codes, and the ends 0, 8 and 15 of the reserved ranges. -/
theorem witness_OpcodeMap :
    (∀ n, n < 8 → (portsOf (BitVec.ofNat 4 n)).op = BitVec.ofNat 4 n) ∧ (portsOf 0x0).op = 0x0 ∧
    0x8 ≤ (portsOf 0x8).op ∧ 0x8 ≤ (portsOf 0xF).op := by decide

/-- No command issued; a command; a reserved code; a word of the host. -/
theorem witness_StepRunsTheIssuedCommand :
    fresh.input = [] ∧
    ({ fresh with input := [portsOf 6] } : State).input = [portsOf 6] ∧ decodePorts (portsOf 6) = .ok .trLoad ∧
    decodePorts (portsOf 0) = .error (.reservedOp 0) ∧ decodeTableWord 8 0x04 = some .tableLoad :=
  ⟨rfl, rfl, rfl, rfl, rfl⟩

/-- Both ranges of reserved codes, on a faulted unit. -/
theorem witness_ReservedCodeChangesNothing :
    ({ faulted with input := [portsOf 0xF, portsOf 4] } : State).input = portsOf 0xF :: [portsOf 4] ∧
    0x8 ≤ (portsOf 0xF).op ∧ 0x8 ≤ (portsOf 0x8).op ∧ (portsOf 0).op = 0x0 := by decide

/-- Both alternatives of the limit, at the ends, with two states of one alignment. -/
theorem witness_DecodeUndoesEncode :
    running.cfg.flagsAlign = fresh.cfg.flagsAlign ∧ (0xFFFFF : BitVec 32).toNat ≤ 0xFFFFF ∧
    conf'.limitPolicy = .truncate ∧ ¬ (0x100000 : BitVec 32).toNat ≤ 0xFFFFF := by decide

/-- The limit at both sides of the boundary under either policy, and both alignments. -/
theorem witness_EncodeResult :
    (0xFFFFF : BitVec 32).toNat ≤ 0xFFFFF ∧ 0xFFFFF < (0x100000 : BitVec 32).toNat ∧
    fresh.cfg.limitPolicy = .reject ∧ conf'.limitPolicy = .truncate ∧ fresh.cfg.flagsAlign = .low ∧
    conf'.flagsAlign = .high := by decide

/-- Two states of different phase, fault, trace and memory with the same policies. -/
theorem witness_PureResultsDependOnOperandsOnly :
    (Instr.encode 0 0x100000 0x92 0x0C).isPure = true ∧ (Instr.decode 0).isPure = true ∧
    (Instr.selector 8191 3).isPure = true ∧ running.cfg.limitPolicy = fresh.cfg.limitPolicy ∧
    running.cfg.flagsAlign = fresh.cfg.flagsAlign ∧ running.phase ≠ fresh.phase := by decide

/-- A faulted unit, an order violation in the last phase, and the completing case. -/
theorem witness_TableLoadEffect :
    faulted.cfg.wf ∧ faulted.fault = true ∧ running.cfg.wf ∧ running.fault = false ∧ running.phase ≠ .unloaded ∧
    fresh.cfg.wf ∧ fresh.fault = false ∧ fresh.phase = .unloaded ∧ 5 < fresh.cfg.gdtEntries ∧
    ¬ inTable fresh.cfg 0x001007FF ∧ ¬ inTable fresh.cfg 0x00100830 := by decide

/-- A faulted unit; each of the four errors, index and size at the ends of their ranges; the completing case at index 1 and
5 and size 1 and `0x100000`, and under `TRUNCATE` the largest size. -/
theorem witness_InstallTssEffect :
    faulted.fault = true ∧ loaded.cfg.wf ∧ loaded.fault = false ∧
    installError fresh 5 104 = some .orderViolation ∧ installError running 0 0 = some .orderViolation ∧
    installError loaded 0 104 = some .indexOutOfRange ∧ installError loaded 6 104 = some .indexOutOfRange ∧
    installError loaded 5 0 = some .badTssSize ∧ installError loaded 5 0x100001 = some .limitOverflow ∧
    installError loaded 1 1 = none ∧ installError installed 5 0x100000 = none ∧
    installError { loaded with cfg := conf' } 5 0xFFFFFFFF = none := by decide

theorem witness_TrLoadEffect :
    faulted.fault = true ∧ loaded.fault = false ∧ loaded.phase ≠ .tssInstalled ∧ installed.fault = false ∧
    installed.phase = .tssInstalled := by decide

/-- A faulted unit, an order violation, each size error at the ends, and the completing case. -/
theorem witness_InitEffect :
    faulted.cfg.wf ∧ faulted.fault = true ∧ loaded.fault = false ∧ loaded.phase ≠ .unloaded ∧
    fresh.fault = false ∧ fresh.phase = .unloaded ∧ 0 < fresh.cfg.gdtEntries ∧ 0 ≠ fresh.cfg.idxTss ∧
    sizeError conf 0 = some .badTssSize ∧ sizeError conf 0x100001 = some .limitOverflow ∧
    sizeError conf 1 = none ∧ sizeError conf 0x100000 = none ∧ sizeError conf' 0xFFFFFFFF = none := by decide

/-- A refused and an admitted cell of each sequenced command. -/
theorem witness_TransitionTable :
    fresh.cfg.wf ∧ fresh.fault = false ∧ Instr.tableLoad.isSequenced = true ∧
    transition .tableLoad .unloaded = some .tableLoaded ∧ transition .tableLoad .tableLoaded = none ∧
    transition (.installTss 5 0 104) .tssInstalled = some .tssInstalled ∧
    transition (.installTss 5 0 104) .unloaded = none ∧
    transition .trLoad .tssInstalled = some .taskRegisterLoaded ∧ transition .trLoad .taskRegisterLoaded = none ∧
    transition (.init 0 104) .unloaded = some .taskRegisterLoaded ∧ transition (.init 0 104) .tableLoaded = none := by
  decide

/-- V43 and then V45 with another index. -/
theorem witness_InstallTssIsIdempotent :
    loaded.mem.wf ∧ exec (.installTss 5 0x00123456 104) loaded = .next installed ∧
    installed.out.status = some .ok ∧ loaded.cfg.wf ∧ (1 : BitVec 13) ≠ 0 ∧
    (1 : BitVec 13).toNat < loaded.cfg.gdtEntries ∧ (0x100000 : BitVec 32) ≠ 0 ∧
    (0x100000 : BitVec 32).toNat ≤ 0x100000 ∧ exec .trLoad installed = .next running :=
  ⟨by decide, next_of_nextState test_install_tss_v43, rfl, by decide, by decide, by decide, by decide, by decide, rfl⟩

theorem witness_InstalledEntryDecodesToTheTss :
    fresh.cfg.wf ∧ fresh.fault = false ∧ fresh.phase = .unloaded ∧ 1 ≤ (1 : BitVec 32).toNat ∧
    (0x100000 : BitVec 32).toNat ≤ 0x100000 := by decide

/-- The first clause on an error under `REJECT`, and under `TRUNCATE`; the second on a code of the table. -/
theorem witness_CodesOfEachCommand :
    loaded.cfg.wf ∧ exec .tableLoad faulted = .next { faulted with out := { status := some .halted } } ∧
    conf'.limitPolicy = .truncate ∧ mayGive 0x5 (.error .limitOverflow) = true :=
  ⟨by decide, rfl, by decide, by decide⟩

theorem witness_FirstFailingCheckIsReported :
    ({ faulted with input := [portsOf 0x0] } : State).cfg.wf ∧
    ({ faulted with input := [portsOf 0x0] } : State).input = portsOf 0x0 :: [] := by decide

/-- V60: an order violation of `TR_LOAD`. -/
theorem witness_SingleStepFaultsArePrecise :
    exec .trLoad loaded = .next { faulted with out := { status := some (.error .orderViolation) } } := rfl

/-- A faulted unit, a sequenced and a pure command, and a step of it. -/
theorem witness_FaultHaltsTheSequenceUntilReset :
    faulted.fault = true ∧ (Instr.init 0 0).isSequenced = true ∧ (Instr.decode 0).isPure = true ∧
    step { faulted with input := [portsOf 4] } = .next { faulted with out := { status := some .halted } } :=
  ⟨rfl, rfl, rfl, rfl⟩

/-- A step that sets `FAULT`, and one that does not. -/
theorem witness_CauseHoldsTheFirstFault :
    step { loaded with input := [portsOf 6] } =
      .next { faulted with out := { status := some (.error .orderViolation) } } ∧
    step { installed with input := [portsOf 6] } = .next running := ⟨rfl, rfl⟩

/-- An error, a sequenced success and a pure success. -/
theorem witness_OnlyTheCommandsPortsAreWritten :
    exec .trLoad loaded = .next { faulted with out := { status := some (.error .orderViolation) } } ∧
    exec .trLoad installed = .next running ∧
    exec (.selector 2 3) fresh = .next { fresh with out := { status := some .ok, selectorOut := some 0x0013 } } :=
  ⟨rfl, rfl, rfl⟩

theorem witness_ResetValues :
    State.reset ∈ [State.reset, applyReset 0x00100800002F running] ∧
    applyReset 0x00100800002F running ∈ [State.reset, applyReset 0x00100800002F running] :=
  ⟨List.mem_cons_self, List.mem_cons_of_mem _ List.mem_cons_self⟩

theorem witness_ResetKeepsMemory : running.cfg.wf := by decide

/-- A word of V39 written again, the last one there is. -/
theorem witness_RepeatedWriteChangesNothing :
    Memory.wf table39 ∧ Memory.read64 table39 0x00100808 = some 0x00CF9A000000FFFF ∧ 0x00100808 + 8 ≤ 2 ^ 32 ∧
    Memory.write64 [] (2 ^ 32 - 8) 0 = some (cellsAt (2 ^ 32 - 8) [0, 0, 0, 0, 0, 0, 0, 0]) := by decide

/-- A write at an unaligned address, and one at the last eight addresses. -/
theorem witness_WordWriteStoresEightBytes :
    Memory.write64 [] 3 0x8877665544332211 =
      some (cellsAt 3 [0x11, 0x22, 0x33, 0x44, 0x55, 0x66, 0x77, 0x88]) ∧
    Memory.write64 [] (2 ^ 32 - 8) 0 = some (cellsAt (2 ^ 32 - 8) [0, 0, 0, 0, 0, 0, 0, 0]) ∧
    Memory.write64 [] (2 ^ 32 - 7) 0 = none ∧ Memory.wf [] := by decide

/-- Entry 1 of V39 as a word and as two halves. -/
theorem witness_MixedWidthReadsAgree :
    Memory.read64 table39 0x00100808 = some 0x00CF9A000000FFFF ∧ Memory.read32 table39 0x00100808 = some 0x0000FFFF ∧
    Memory.read32 table39 0x0010080C = some 0x00CF9A00 := by decide

/-- A table load as a step, and the addresses beside the table. -/
theorem witness_StoresStayInTheTable :
    nextState (step { fresh with input := [portsOf 4] }) = some loaded ∧
    ¬ inTable fresh.cfg 0x001007FF ∧ ¬ inTable fresh.cfg 0x00100830 := by decide

/-- A table load as a step, the ends of the TSS Record, and the first and the last field that lie inside it. -/
theorem witness_TssRecordIsNeverWritten :
    fresh.cfg.wf ∧ nextState (step { fresh with input := [portsOf 4] }) = some loaded ∧
    inTssRecord fresh.cfg 0x00123456 ∧ inTssRecord fresh.cfg 0x001234BD ∧
    TssField.link.offset + TssField.link.bytes ≤ fresh.cfg.tssSize.toNat ∧
    TssField.ioMapBase.offset + TssField.ioMapBase.bytes ≤ fresh.cfg.tssSize.toNat := by decide

theorem witness_NoCommandReadsMemory :
    nextState (step { fresh with input := [portsOf 4] }) = some loaded := by decide

/-- A pure command, and `TR_LOAD` in success and in error. -/
theorem witness_FrameOfNonStoringCommands :
    (Instr.selector 2 3).isPure = true ∧
    exec (.selector 2 3) fresh = .next { fresh with out := { status := some .ok, selectorOut := some 0x0013 } } ∧
    exec .trLoad installed = .next running ∧
    exec .trLoad loaded = .next { faulted with out := { status := some (.error .orderViolation) } } :=
  ⟨rfl, rfl, rfl, rfl⟩

/-- A success, with the effective address of its entry, and an error. -/
theorem witness_FrameOfInstallTss :
    exec (.installTss 5 0x00123456 104) loaded = .next installed ∧
    entryAddress loaded.cfg (5 : BitVec 13).toNat = 0x00100828 ∧
    exec (.installTss 0 0x00123456 104) loaded =
      .next { loaded with fault := true, cause := .error .indexOutOfRange,
                          out := { status := some (.error .indexOutOfRange) } } :=
  ⟨next_of_nextState test_install_tss_v43, rfl, rfl⟩

/-- A `TABLE_LOAD` and an `INIT` that succeed, one turned away, and the addresses beside the table's bytes. -/
theorem witness_FrameOfTableLoadAndInit :
    nextState (exec .tableLoad fresh) = some loaded ∧ nextState (exec (.init 0x00123456 104) fresh) = some running ∧
    nextState (exec .tableLoad faulted) = some { faulted with out := { status := some .halted } } ∧
    faulted.fault = true ∧
    (∀ j, j < fresh.cfg.gdtEntries →
      0x001007FF < entryAddress fresh.cfg j ∨ entryAddress fresh.cfg j + 8 ≤ 0x001007FF) ∧
    (∀ j, j < fresh.cfg.gdtEntries →
      0x00100830 < entryAddress fresh.cfg j ∨ entryAddress fresh.cfg j + 8 ≤ 0x00100830) := by decide

theorem witness_ConfigurationIsConstant :
    step { installed with input := [portsOf 6, portsOf 4] } = .next { running with input := [portsOf 4] } ∧
    Sys2Proof.core.run 1 { installed with input := [portsOf 6, portsOf 4] } =
      .next { running with input := [portsOf 4] } := ⟨rfl, rfl⟩

theorem witness_EveryStepAnswersANextState : faulted.cfg.wf ∧ confTop.wf ∧ confLow.wf := by decide

theorem witness_PhaseNeverGoesBack : step { installed with input := [portsOf 6] } = .next running := rfl

/-- A step after the table load, the table load, and a refused `TR_LOAD` that stays in the first phase. -/
theorem witness_NullDescriptorStaysZero :
    installed.cfg.wf ∧ nextState (step { installed with input := [portsOf 6] }) = some running ∧
    installed.phase ≠ .unloaded ∧ ({ installed with input := [portsOf 6] } : State).entry 0 = some 0 ∧
    nextState (step { fresh with input := [portsOf 4] }) = some loaded ∧ fresh.phase = .unloaded ∧
    loaded.phase ≠ .unloaded ∧
    nextState (step { fresh with input := [portsOf 6] }) =
      some { fresh with fault := true, cause := .error .orderViolation,
                        out := { status := some (.error .orderViolation) } } := by decide

/-- A `TR_LOAD`, and an `INIT` in one step. -/
theorem witness_TaskRegisterLoadNeedsAnInstall :
    installed.cfg.wf ∧ nextState (step { installed with input := [portsOf 6] }) = some running ∧
    installed.phase ≠ .taskRegisterLoaded ∧ running.phase = .taskRegisterLoaded ∧
    nextState (step { fresh with input := [encodePorts (.init 0x00123456 104)] }) = some running ∧
    fresh.phase ≠ .taskRegisterLoaded := by decide +kernel

theorem witness_InvariantHoldsAtReset : running.cfg.wf ∧ running.mem.wf := by decide

/-- Every byte of the table of V39 has a value. -/
theorem table39_specified (a : Nat) (h : inTable conf a) : (Memory.read table39 a).isSome = true := by
  have all : ∀ k, k < 48 → (Memory.read table39 (1050624 + k)).isSome = true := by decide
  obtain ⟨h1, h2⟩ := h
  have e1 : conf.tableAddr.toNat = 1050624 := rfl
  have e2 : conf.gdtEntries = 6 := rfl
  have := all (a - 1050624) (by omega)
  rwa [show 1050624 + (a - 1050624) = a by omega] at this

/-- The unit after V39 meets the invariant, whatever is issued next. -/
theorem inv_loaded (ps : List Ports) : Inv { loaded with input := ps } where
  config := by show conf.wf; decide
  memory := by show Memory.wf table39; decide
  cause := ⟨fun h => (by cases h), fun h => absurd rfl h⟩
  events := by show loaded.ev = eventsOf conf .tableLoaded; decide
  pointer _ := by show loaded.ptr = makePointer conf; decide
  nullEntry _ := by show Memory.read64 table39 (entryAddress conf 0) = some 0; decide
  specified _ := table39_specified

/-- V43 in a state that meets the invariant. -/
theorem witness_LaterFetchSeesThePatchedEntry :
    Inv loaded ∧ exec (.installTss 5 0x00123456 104) loaded = .next installed ∧ installed.out.status = some .ok :=
  ⟨inv_loaded [], next_of_nextState test_install_tss_v43, rfl⟩

theorem witness_InvariantIsKeptByEveryStep :
    Inv { loaded with input := [portsOf 6] } ∧
    step { loaded with input := [portsOf 6] } =
      .next { faulted with out := { status := some (.error .orderViolation) } } := ⟨inv_loaded _, rfl⟩

/-- A run of three steps that ends in the last phase, the third finding no command. -/
theorem witness_PrimitivesAreCalledOnceInOrder :
    Inv { loaded with input := [encodePorts (.installTss 5 0x00123456 104), portsOf 6] } ∧
    Sys2Proof.core.run 3 { loaded with input := [encodePorts (.installTss 5 0x00123456 104), portsOf 6] } =
      .next running ∧ running.phase = .taskRegisterLoaded :=
  ⟨inv_loaded _, next_of_nextState (by decide +kernel), rfl⟩

theorem witness_InitEqualsTheThreeCommands :
    fresh.cfg.wf ∧ fresh.fault = false ∧ fresh.phase = .unloaded := by decide

/-- V63, and V39, V43, V58 with a pure command between: each route ends well. -/
theorem witness_OnlyOneOrderReachesTheEnd :
    fresh.fault = false ∧ fresh.phase = .unloaded ∧
    nextState (runCommands [.init 0x00123456 104] fresh) = some running ∧
    nextState (runCommands [.tableLoad, .installTss 5 0x00123456 104, .selector 2 3, .trLoad] fresh) = some running ∧
    running.endedWell := by decide +kernel

end Sys2Proof.Tests
end

/-! SUPPORT. The bytes of a word in memory, the bytes of the table, and the phases an install is admitted in. -/

namespace Sys2Proof.Machine

open Sys2Proof

/-! ### The bytes of a word (R35) -/

theorem bytesLE_zero (n : Nat) : bytesLE n 0 = List.replicate n 0 := by
  induction n with
  | zero => rfl
  | succ n ih => simp [bytesLE, ih, List.replicate_succ]

/-- Each byte of a word read from memory is that byte of the word. -/
theorem Memory.read_of_read64 {m : Memory} {a : Nat} {v : Descriptor} (h : m.read64 a = some v) {k : Nat} (hk : k < 8) :
    m.read (a + k) = some ((bytesLE 8 v.toNat)[k]'(by simpa using hk)) :=
  (Memory.readBytes_eq_some.1 (Memory.read64_eq_some.1 h)).2 k (by simpa using hk)

/-- Each byte of a zero word read from memory is zero. -/
theorem Memory.read_of_read64_zero {m : Memory} {a : Nat} (h : m.read64 a = some 0) {k : Nat} (hk : k < 8) :
    m.read (a + k) = some 0 := by
  have hbyte : ∀ n (hn : k < (bytesLE n 0).length), (bytesLE n 0)[k] = 0 := fun n hn => by simp [bytesLE_zero]
  exact (Memory.read_of_read64 h hk).trans (congrArg some (hbyte 8 (by simpa using hk)))

/-! ### The bytes of the table (R21, R106) -/

/-- The null entry is an entry of every legal table (R6). -/
theorem gdtEntries_pos_of_wf {c : Config} (h : c.wf) : 0 < c.gdtEntries := by
  obtain ⟨-, hrange, -⟩ := h
  exact hrange idxNull (by simp)

/-- Every byte of the table has a value. -/
def TableSpecified (cfg : Config) (m : Memory) : Prop := ∀ a, inTable cfg a → (m.read a).isSome = true

/-- An address of the table is a byte of one of its entries. -/
theorem inTable.exists_entry {cfg : Config} {a : Nat} (h : inTable cfg a) :
    ∃ i k, i < cfg.gdtEntries ∧ k < 8 ∧ a = entryAddress cfg i + k := by
  obtain ⟨hlo, hhi⟩ := h
  refine ⟨(a - cfg.tableAddr.toNat) / 8, (a - cfg.tableAddr.toNat) % 8, ?_, ?_, ?_⟩
  · omega
  · omega
  · unfold entryAddress
    omega

/-- A table load gives every byte of the table a value. -/
theorem tableSpecified_of_storeTable {cfg : Config} {m m' : Memory}
    (h : storeEntries cfg 0 (buildTable cfg) m = some m') : TableSpecified cfg m' := by
  intro a ha
  obtain ⟨i, k, hi, hk, rfl⟩ := ha.exists_entry
  simp [Memory.read_of_read64 ((storeTable_spec h).1 i hi) hk]

/-- An entry store takes the value of no byte away. -/
theorem TableSpecified.storeEntry {cfg : Config} {i : Nat} {v : Descriptor} {m m' : Memory}
    (hs : TableSpecified cfg m) (h : storeEntry cfg i v m = some m') : TableSpecified cfg m' := by
  obtain ⟨hword, hother, -⟩ := storeEntry_spec h
  intro a ha
  by_cases hin : entryAddress cfg i ≤ a ∧ a < entryAddress cfg i + 8
  · obtain ⟨k, rfl⟩ := Nat.exists_eq_add_of_le hin.1
    simp [Memory.read_of_read64 hword (k := k) (by omega)]
  · rw [hother a (by omega)]
    exact hs a ha

/-! ### The phases in which an install is allowed (R112) -/

/-- No install is admitted while no table is loaded (R112). -/
theorem ne_unloaded_of_admitsInstall {p : Phase} (h : admitsInstall p = true) : p ≠ .unloaded := by
  rintro rfl
  cases h

/-- A phase that admits an install goes with the trace of `TSSInstalled` (R112). -/
theorem eventsOf_of_admitsInstall {cfg : Config} {p : Phase} (h : admitsInstall p = true) :
    eventsOf cfg p = eventsOf cfg .tssInstalled := by
  cases p with
  | unloaded | taskRegisterLoaded => cases h
  | tableLoaded | tssInstalled => rfl

end Sys2Proof.Machine

/-! SUPPORT. A step as a sequence of moves: each move is one update of the state the unit makes, with the checks it makes
first. A property every move keeps is kept by every step, `INIT` with its three moves included. -/

namespace Sys2Proof.Machine

open Sys2Proof

/-- One update of the state the unit makes while it runs a command. -/
inductive Move : State → State → Prop where
  /-- The harness's command is taken from the input ports (R143). -/
  | input (s : State) (ps : List Ports) : Move s (s.setInput ps)
  /-- The output ports are written (R61). -/
  | output (s : State) (o : Outputs) : Move s (s.setOut o)
  /-- A configuration error is raised (R123). -/
  | fault {s : State} (hf : s.fault = false) (c : ConfigError) : Move s (s.takeFault c)
  /-- The table is stored and loaded (R106). -/
  | load {s : State} {m : Memory} (hf : s.fault = false) (hp : s.phase = .unloaded)
      (hm : storeEntries s.cfg 0 (buildTable s.cfg) s.mem = some m) : Move s (afterTableLoad s m)
  /-- A TSS descriptor is stored at an index that is not the null entry's (R94). -/
  | install {s : State} {m : Memory} {k : Nat} {a n : Word} (hf : s.fault = false)
      (hp : admitsInstall s.phase = true) (hk : 0 < k) (hk' : k < s.cfg.gdtEntries) (hn : n ≠ 0)
      (hl : limitRejected s.cfg (n - 1) = false) (hm : storeEntry s.cfg k (tssDescriptor a n) s.mem = some m) :
      Move s ((s.setMem m).setPhase .tssInstalled)
  /-- The task register is loaded (R107). -/
  | trLoad {s : State} (hf : s.fault = false) (hp : s.phase = .tssInstalled) :
      Move s ((s.emit (.loadTaskRegister (tssSelector s.cfg))).setPhase .taskRegisterLoaded)

/-- Any number of moves, in order. -/
abbrev Moves : State → State → Prop := Relation.ReflTransGen Move

/-- One move, then the output ports: how a command of one step ends (R61). -/
theorem Move.withOutput {s t : State} (h : Move s t) (o : Outputs) : Moves s (t.setOut o) :=
  (Relation.ReflTransGen.single h).tail (.output t o)

/-- A command that answers a next state has made moves only. -/
theorem exec_moves {i : Instr} {s t : State} (h : exec i s = .next t) : Moves s t := by
  cases hi : i.isPure with
  | true =>
    obtain ⟨o, rfl⟩ := execPure_next hi h
    exact .single (.output s o)
  | false =>
    cases i with
    | encode | decode | selector => cases hi
    | tableLoad =>
      obtain ⟨-, rfl⟩ | ⟨hf, -, rfl⟩ | ⟨hf, hp, m, hm, rfl⟩ := execTableLoad_next h
      · exact .single (.output s _)
      · exact (Move.fault hf _).withOutput _
      · exact (Move.load hf hp hm).withOutput _
    | installTss k a n =>
      obtain ⟨-, rfl⟩ | ⟨hf, c, rfl⟩ | ⟨hf, hp, hk, hk', hn, hl, m, hm, rfl⟩ := execInstallTss_next h
      · exact .single (.output s _)
      · exact (Move.fault hf c).withOutput _
      · exact (Move.install hf hp hk hk' hn hl hm).withOutput _
    | trLoad =>
      obtain ⟨-, rfl⟩ | ⟨hf, -, rfl⟩ | ⟨hf, hp, rfl⟩ := execTrLoad_next h
      · exact .single (.output s _)
      · exact (Move.fault hf _).withOutput _
      · exact (Move.trLoad hf hp).withOutput _
    | init a n =>
      obtain ⟨-, rfl⟩ | ⟨hf, -, rfl⟩ | ⟨hf, hp, m, hm, ⟨c, -, rfl⟩ | ⟨hk, hk', hn, hl, m2, hm2, rfl⟩⟩ :=
        execInit_next h
      · exact .single (.output s _)
      · exact (Move.fault hf _).withOutput _
      · exact ((Move.fault (s := afterTableLoad s m) hf c).withOutput _).head (.load hf hp hm)
      · have install : Move (afterTableLoad s m) (((afterTableLoad s m).setMem m2).setPhase .tssInstalled) :=
          .install hf rfl hk hk' hn hl hm2
        have trLoad := Move.trLoad (s := ((afterTableLoad s m).setMem m2).setPhase .tssInstalled) hf rfl
        exact ((trLoad.withOutput _).head install).head (.load hf hp hm)

/-- A step that answers a next state has made moves only. -/
theorem step_moves {s t : State} (h : step s = .next t) : Moves s t := by
  obtain ⟨-, rfl⟩ | ⟨p, rest, -, ⟨i, -, he⟩ | ⟨r, -, rfl⟩⟩ := step_next h
  · exact .refl
  · exact (exec_moves he).head (.input s rest)
  · exact (Move.input s rest).withOutput _

/-- A property every move keeps is kept by any number of them. -/
theorem Moves.keep {P : State → Prop} (keep : ∀ u v, Move u v → P u → P v) {s t : State} (h : Moves s t)
    (hs : P s) : P t := by
  induction h with
  | refl => exact hs
  | tail _ hm ih => exact keep _ _ hm ih

/-- A property every move keeps is kept by every step. -/
theorem step_keeps {P : State → Prop} (keep : ∀ u v, Move u v → P u → P v) {s t : State} (h : step s = .next t)
    (hs : P s) : P t :=
  (step_moves h).keep keep hs

/-! ### What one move does to each part of the state -/

/-- No move changes the configuration (R63). -/
theorem Move.cfg_eq {s t : State} (h : Move s t) : t.cfg = s.cfg := by
  cases h <;> rfl

/-- No move goes back to `Unloaded` (R115). -/
theorem Move.phase_ne_unloaded {s t : State} (h : Move s t) (hs : s.phase ≠ .unloaded) : t.phase ≠ .unloaded := by
  cases h with
  | input | output | fault => exact hs
  | load | install | trLoad => simp [afterTableLoad]

/-- No move changes a byte outside the table (R33, R47). -/
theorem Move.read_outside_table {s t : State} (h : Move s t) {x : Nat} (hx : ¬ inTable s.cfg x) :
    t.mem.read x = s.mem.read x := by
  cases h with
  | input | output | fault | trLoad => rfl
  | load _ _ hm => exact (storeTable_spec hm).2.1 x hx
  | install _ _ _ hk' _ _ hm =>
    refine (storeEntry_spec hm).2.1 x ?_
    unfold inTable at hx
    unfold entryAddress
    omega

/-- A move keeps memory canonical. -/
theorem Move.mem_wf {s t : State} (h : Move s t) (hs : s.mem.wf) : t.mem.wf := by
  cases h with
  | input | output | fault | trLoad => exact hs
  | load _ _ hm => exact (storeTable_spec hm).2.2 hs
  | install _ _ _ _ _ _ hm => exact (storeEntry_spec hm).2.2.2 hs

/-! ### Entry 0 (R22, R82) -/

/-- After a move, entry 0 is zero from the table load on, if it was before. -/
theorem Move.entry_zero {s t : State} (h : Move s t) (hpos : 0 < s.cfg.gdtEntries)
    (hs : s.phase ≠ .unloaded → s.entry 0 = some 0) (ht : t.phase ≠ .unloaded) : t.entry 0 = some 0 := by
  cases h with
  | input | output | fault => exact hs ht
  | load _ _ hm => exact ((storeTable_spec hm).1 0 hpos).trans (by rw [tableEntry_zero])
  | install _ hp hk _ _ _ hm =>
    have hkept := (storeEntry_spec hm).2.2.1 0 hk.ne
    exact hkept.trans (hs (ne_unloaded_of_admitsInstall hp))
  | trLoad _ hp => exact hs (by simp [hp])

/-- A move leaves each byte of entry 0 or makes it zero. -/
theorem Move.read_entry_zero {s t : State} (h : Move s t) (hpos : 0 < s.cfg.gdtEntries) {j : Nat} (hj : j < 8) :
    t.mem.read (entryAddress s.cfg 0 + j) = s.mem.read (entryAddress s.cfg 0 + j) ∨
      t.mem.read (entryAddress s.cfg 0 + j) = some 0 := by
  cases h with
  | input | output | fault | trLoad => exact .inl rfl
  | load _ _ hm =>
    have hword := (storeTable_spec hm).1 0 hpos
    rw [tableEntry_zero] at hword
    exact .inr (Memory.read_of_read64_zero hword hj)
  | install _ _ hk _ _ _ hm =>
    refine .inl ((storeEntry_spec hm).2.1 _ (.inl ?_))
    unfold entryAddress
    omega

/-! ### The bytes of the table (R106) -/

/-- After a move, every byte of the table has a value from the table load on, if it had before. -/
theorem Move.tableSpecified {s t : State} (h : Move s t) (hs : s.phase ≠ .unloaded → TableSpecified s.cfg s.mem)
    (ht : t.phase ≠ .unloaded) : TableSpecified t.cfg t.mem := by
  cases h with
  | input | output | fault => exact hs ht
  | load _ _ hm => exact tableSpecified_of_storeTable hm
  | install _ hp _ _ _ _ hm => exact (hs (ne_unloaded_of_admitsInstall hp)).storeEntry hm
  | trLoad _ hp => exact hs (by simp [hp])

/-! ### The registers and the trace -/

/-- A move keeps `FAULT` and `CAUSE` in agreement (R16, R17). -/
theorem Move.fault_iff_cause {s t : State} (h : Move s t) (hs : s.fault = true ↔ s.cause ≠ .none) :
    t.fault = true ↔ t.cause ≠ .none := by
  cases h with
  | input | output | load | install | trLoad => exact hs
  | fault => simp

/-- A move keeps the trace the one the phase says (R108). -/
theorem Move.ev_eq_eventsOf {s t : State} (h : Move s t) (hs : s.ev = eventsOf s.cfg s.phase) :
    t.ev = eventsOf t.cfg t.phase := by
  cases h with
  | input | output | fault => exact hs
  | load _ hp _ => simp [afterTableLoad, hs, hp, eventsOf]
  | install _ hp _ _ _ _ _ => exact hs.trans (eventsOf_of_admitsInstall hp)
  | trLoad _ hp => simp [hs, hp, eventsOf]

/-- After a move, `PTR` is the pointer from the table load on, if it was before (R101). -/
theorem Move.ptr_eq {s t : State} (h : Move s t) (hs : s.phase ≠ .unloaded → s.ptr = makePointer s.cfg)
    (ht : t.phase ≠ .unloaded) : t.ptr = makePointer t.cfg := by
  cases h with
  | input | output | fault => exact hs ht
  | load => rfl
  | install _ hp _ _ _ _ _ => exact hs (ne_unloaded_of_admitsInstall hp)
  | trLoad _ hp => exact hs (by simp [hp])

end Sys2Proof.Machine

/-! The invariant (O53, O54). -/

namespace Sys2Proof.Machine

open Sys2Proof

theorem Move.inv {s t : State} (h : Move s t) (hs : Inv s) : Inv t where
  config    := h.cfg_eq ▸ hs.config
  memory    := h.mem_wf hs.memory
  cause     := h.fault_iff_cause hs.cause
  events    := h.ev_eq_eventsOf hs.events
  pointer   := h.ptr_eq hs.pointer
  nullEntry := h.entry_zero (gdtEntries_pos_of_wf hs.config) hs.nullEntry
  specified := h.tableSpecified hs.specified

/-- Settles O54: every move keeps the invariant, clause by clause. -/
theorem invariantIsKeptByEveryStep : Obligations.InvariantIsKeptByEveryStep :=
  fun _ _ hs h => step_keeps (fun _ _ => Move.inv) h hs

/-- With no table loaded and no fault the invariant asks only for a legal configuration and canonical memory. -/
theorem inv_of_unloaded {s : State} (hc : s.cfg.wf) (hm : s.mem.wf) (hf : s.fault = false) (hcause : s.cause = .none)
    (hp : s.phase = .unloaded) (hev : s.ev = []) : Inv s where
  config    := hc
  memory    := hm
  cause     := by simp [hf, hcause]
  events    := by rw [hev, hp, eventsOf]
  pointer   := fun h => absurd hp h
  nullEntry := fun h => absurd hp h
  specified := fun h => absurd hp h

/-- Settles O53: in both states no table is loaded and there is no fault. -/
theorem invariantHoldsAtReset : Obligations.InvariantHoldsAtReset := by
  refine ⟨?_, fun s p hc hm => ?_⟩
  · exact inv_of_unloaded (by decide) reset_mem_wf rfl rfl rfl rfl
  · exact inv_of_unloaded hc hm rfl rfl rfl rfl

end Sys2Proof.Machine

/-! The null entry and the TSS Record (O51, O42). -/

namespace Sys2Proof.Machine

open Sys2Proof

/-- No step changes the configuration (R63). -/
theorem step_cfg_eq {s t : State} (h : step s = .next t) : t.cfg = s.cfg :=
  step_keeps (P := fun u => u.cfg = s.cfg) (fun _ _ hm hu => hm.cfg_eq.trans hu) h rfl

/-- No step goes back to `Unloaded` (R115). -/
theorem step_phase_ne_unloaded {s t : State} (h : step s = .next t) (hs : s.phase ≠ .unloaded) :
    t.phase ≠ .unloaded :=
  step_keeps (P := fun u => u.phase ≠ .unloaded) (fun _ _ => Move.phase_ne_unloaded) h hs

/-- No step changes a byte outside the table (R33, R47). -/
theorem step_read_outside_table {s t : State} (h : step s = .next t) {x : Nat} (hx : ¬ inTable s.cfg x) :
    t.mem.read x = s.mem.read x := by
  refine (step_keeps (P := fun u => u.cfg = s.cfg ∧ u.mem.read x = s.mem.read x) ?_ h ⟨rfl, rfl⟩).2
  rintro u v hm ⟨hcfg, hread⟩
  exact ⟨hm.cfg_eq.trans hcfg, (hm.read_outside_table (hcfg ▸ hx)).trans hread⟩

/-- After a step, entry 0 is zero from the table load on, if it was before (R22). -/
theorem step_entry_zero {s t : State} (h : step s = .next t) (hpos : 0 < s.cfg.gdtEntries)
    (hs : s.phase ≠ .unloaded → s.entry 0 = some 0) (ht : t.phase ≠ .unloaded) : t.entry 0 = some 0 := by
  refine (step_keeps (P := fun u => 0 < u.cfg.gdtEntries ∧ (u.phase ≠ .unloaded → u.entry 0 = some 0))
    ?_ h ⟨hpos, hs⟩).2 ht
  rintro u v hm ⟨hpos, hu⟩
  exact ⟨hm.cfg_eq ▸ hpos, hm.entry_zero hpos hu⟩

/-- A step leaves each byte of entry 0 or makes it zero. -/
theorem step_read_entry_zero {s t : State} (h : step s = .next t) (hpos : 0 < s.cfg.gdtEntries) {j : Nat} (hj : j < 8) :
    t.mem.read (entryAddress s.cfg 0 + j) = s.mem.read (entryAddress s.cfg 0 + j) ∨
      t.mem.read (entryAddress s.cfg 0 + j) = some 0 := by
  refine (step_keeps (P := fun u => u.cfg = s.cfg ∧
    (u.mem.read (entryAddress s.cfg 0 + j) = s.mem.read (entryAddress s.cfg 0 + j) ∨
      u.mem.read (entryAddress s.cfg 0 + j) = some 0)) ?_ h ⟨rfl, .inl rfl⟩).2
  rintro u v hm ⟨hcfg, hu⟩
  refine ⟨hm.cfg_eq.trans hcfg, ?_⟩
  rw [← hcfg] at hpos hu ⊢
  obtain hkept | hzero := hm.read_entry_zero hpos hj
  · rwa [hkept]
  · exact .inr hzero

/-- Settles O51: only a table load stores to entry 0, and it stores zero. -/
theorem nullDescriptorStaysZero : Obligations.NullDescriptorStaysZero := by
  intro s t hc h
  have hpos := gdtEntries_pos_of_wf hc
  refine ⟨fun hp h0 => ?_, fun hp ht => ?_, fun j hj => step_read_entry_zero h hpos hj⟩
  · exact step_entry_zero h hpos (fun _ => h0) (step_phase_ne_unloaded h hp)
  · exact step_entry_zero h hpos (fun hne => absurd hp hne) ht

/-- In a legal configuration no byte of the TSS Record is a byte of the table (R7). -/
theorem not_inTable_of_inTssRecord {c : Config} (hc : c.wf) {a : Nat} (ha : inTssRecord c a) : ¬ inTable c a := by
  obtain ⟨-, -, -, -, -, hapart⟩ := hc
  unfold Config.regionsApart at hapart
  unfold inTssRecord at ha
  unfold inTable
  omega

/-- A field inside the record reads the same where the record does. -/
theorem TssField.read_congr {s t : State} (hcfg : t.cfg = s.cfg)
    (hmem : ∀ a, inTssRecord s.cfg a → t.mem.read a = s.mem.read a) {f : TssField}
    (hf : f.offset + f.bytes ≤ s.cfg.tssSize.toNat) : f.read t = f.read s := by
  unfold TssField.read
  rw [hcfg, Memory.readBytes_congr fun x hlo hhi => hmem x ?_]
  unfold TssField.address at hlo hhi
  unfold inTssRecord
  omega

/-- Settles O42: a step stores to the table only, and the TSS Record is apart from it. -/
theorem tssRecordIsNeverWritten : Obligations.TssRecordIsNeverWritten := by
  intro s t hc h
  have hcfg := step_cfg_eq h
  have hmem : ∀ a, inTssRecord s.cfg a → t.mem.read a = s.mem.read a :=
    fun a ha => step_read_outside_table h (not_inTable_of_inTssRecord hc ha)
  exact ⟨by rw [hcfg], by rw [hcfg], hmem, fun f hf => TssField.read_congr hcfg hmem hf⟩

end Sys2Proof.Machine

/-! `FAULT` and `CAUSE` (O34), and the values at reset (O36). -/

namespace Sys2Proof.Machine

open Sys2Proof

/-- `FAULT` and `CAUSE` are as before, or `FAULT` goes from 0 to 1 and the error reported is the cause (R16, R17). -/
def FirstFaultOrKept (s t : State) : Prop :=
  (t.fault = s.fault ∧ t.cause = s.cause) ∨
  (s.fault = false ∧ t.fault = true ∧ ∃ e, t.cause = .error e ∧ t.out.status = some (.error e))

/-- The end of every command that finds a configuration error: `u` is the state it finds it in. -/
theorem FirstFaultOrKept.of_takeFault {s : State} (hf : s.fault = false) (u : State) (c : ConfigError) :
    FirstFaultOrKept s ((u.takeFault c).setOut (.ofStatus (.error c))) :=
  .inr ⟨hf, rfl, c, rfl, rfl⟩

/-- A sequenced command writes `CAUSE` only with the error it reports, on a unit with no fault (R17, R123). -/
theorem execSequenced_firstFaultOrKept {i : Instr} {s t : State} (hi : i.isSequenced = true)
    (h : exec i s = .next t) : FirstFaultOrKept s t := by
  cases i with
  | encode | decode | selector => cases hi
  | tableLoad =>
    obtain ⟨-, rfl⟩ | ⟨hf, -, rfl⟩ | ⟨-, -, m, -, rfl⟩ := execTableLoad_next h
    · exact .inl ⟨rfl, rfl⟩
    · exact .of_takeFault hf s _
    · exact .inl ⟨rfl, rfl⟩
  | installTss k a n =>
    obtain ⟨-, rfl⟩ | ⟨hf, c, rfl⟩ | ⟨-, -, -, -, -, -, m, -, rfl⟩ := execInstallTss_next h
    · exact .inl ⟨rfl, rfl⟩
    · exact .of_takeFault hf s c
    · exact .inl ⟨rfl, rfl⟩
  | trLoad =>
    obtain ⟨-, rfl⟩ | ⟨hf, -, rfl⟩ | ⟨-, -, rfl⟩ := execTrLoad_next h
    · exact .inl ⟨rfl, rfl⟩
    · exact .of_takeFault hf s _
    · exact .inl ⟨rfl, rfl⟩
  | init a n =>
    obtain ⟨-, rfl⟩ | ⟨hf, -, rfl⟩ | ⟨hf, -, m, -, ⟨c, -, rfl⟩ | ⟨-, -, -, -, m2, -, rfl⟩⟩ := execInit_next h
    · exact .inl ⟨rfl, rfl⟩
    · exact .of_takeFault hf s _
    · exact .of_takeFault hf (afterTableLoad s m) c
    · exact .inl ⟨rfl, rfl⟩

/-- Settles O34: only a sequenced command writes `CAUSE`, and it writes the error it reports. -/
theorem causeHoldsTheFirstFault : Obligations.CauseHoldsTheFirstFault := by
  refine ⟨rfl, fun _ _ => rfl, rfl, fun s t h => ?_⟩
  obtain ⟨-, rfl⟩ | ⟨p, rest, hin, ⟨i, hd, he⟩ | ⟨r, -, rfl⟩⟩ := step_next h
  · exact .inl ⟨rfl, rfl⟩
  · cases hi : i.isPure with
    | true =>
      obtain ⟨o, rfl⟩ := execPure_next hi he
      exact .inl ⟨rfl, rfl⟩
    | false =>
      have hseq : i.isSequenced = true := by simp [Instr.isSequenced, hi]
      obtain hkept | ⟨hf, ht, e, hcause, hstatus⟩ := execSequenced_firstFaultOrKept hseq he
      · exact .inl hkept
      · exact .inr ⟨hf, ht, e, i, p, rest, hcause, hstatus, hin, hd, hseq⟩
  · exact .inl ⟨rfl, rfl⟩

/-- Settles O36: the two states at reset hold the values of R31 field by field. -/
theorem resetValues : Obligations.ResetValues := by
  intro s p r hr
  obtain rfl | rfl : r = State.reset ∨ r = applyReset p s := by simpa using hr
  · exact ⟨rfl, rfl, rfl, rfl, rfl⟩
  · exact ⟨rfl, rfl, rfl, rfl, rfl⟩

end Sys2Proof.Machine

/-! SUPPORT. The bytes of a word of any width in memory, little-endian (R35). -/

namespace Sys2Proof

theorem bytesLE_getElem {n v k : Nat} (hk : k < (bytesLE n v).length) :
    (bytesLE n v)[k] = BitVec.ofNat 8 (v / 256 ^ k) := by
  induction n generalizing v k with
  | zero => simp [bytesLE] at hk
  | succ n ih =>
    cases k with
    | zero => simp [bytesLE]
    | succ k => simp [bytesLE, ih, Nat.div_div_eq_div_mul, Nat.pow_succ']

/-- Byte `k` of a word is its eight bits from bit `8 * k` up (R35). -/
theorem bytesLE_toNat_getElem {w n k : Nat} (v : BitVec w) (hk : k < (bytesLE n v.toNat).length) :
    (bytesLE n v.toNat)[k] = v.extractLsb' (8 * k) 8 := by
  rw [bytesLE_getElem, BitVec.extractLsb', Nat.shiftRight_eq_div_pow, Nat.pow_mul]

/-- Bits taken from bits of a word are bits of that word. -/
theorem extractLsb'_extractLsb' {w : Nat} (v : BitVec w) {start len start' len' : Nat} (h : start' + len' ≤ len) :
    (v.extractLsb' start len).extractLsb' start' len' = v.extractLsb' (start + start') len' := by
  apply BitVec.eq_of_getLsbD_eq
  intro i hi
  have hin : start' + i < len := by omega
  simp [hi, hin, Nat.add_assoc]

end Sys2Proof

namespace Sys2Proof.Machine

open Sys2Proof

/-- A read of an `n`-byte word gives `v` exactly when each byte is that of `v`. -/
theorem Memory.readWord_eq_some {m : Memory} {a n : Nat} {v : BitVec (8 * n)} :
    (m.readBytes a n).map (fun bs => BitVec.ofNat (8 * n) (leNat bs)) = some v ↔
      ∀ k, k < n → m.read (a + k) = some (v.extractLsb' (8 * k) 8) := by
  have hpow : 2 ^ (8 * n) = 256 ^ n := Nat.pow_mul 2 8 n
  have hbytes : m.readBytes a n = some (bytesLE n v.toNat) ↔
      ∀ k, k < n → m.read (a + k) = some (v.extractLsb' (8 * k) 8) := by
    simp [Memory.readBytes_eq_some, bytesLE_toNat_getElem]
  rw [← hbytes, Option.map_eq_some_iff]
  constructor
  · rintro ⟨bs, hbs, rfl⟩
    have hlen : bs.length = n := (Memory.readBytes_eq_some.1 hbs).1
    have hlt : leNat bs < 2 ^ (8 * n) := by rw [hpow, ← hlen]; exact leNat_lt bs
    rw [hbs, BitVec.toNat_ofNat, Nat.mod_eq_of_lt hlt, ← hlen, bytesLE_leNat]
  · intro h
    exact ⟨_, h, by rw [leNat_bytesLE_toNat v hpow.le, BitVec.ofNat_toNat, BitVec.setWidth_eq]⟩

theorem Memory.read64_eq_some_iff_bytes {m : Memory} {a : Nat} {v : Descriptor} :
    m.read64 a = some v ↔ ∀ k, k < 8 → m.read (a + k) = some (v.extractLsb' (8 * k) 8) :=
  Memory.readWord_eq_some (n := 8)

theorem Memory.read32_eq_some_iff_bytes {m : Memory} {a : Nat} {v : Word} :
    m.read32 a = some v ↔ ∀ k, k < 4 → m.read (a + k) = some (v.extractLsb' (8 * k) 8) :=
  Memory.readWord_eq_some (n := 4)

/-- A 32-bit read whose bytes are bytes of a 64-bit word gives that half of the word (R36). -/
theorem Memory.read32_of_bytes {m : Memory} {a i : Nat} {d : Descriptor} (hi : i + 4 ≤ 8)
    (h : ∀ k, k < 8 → m.read (a + k) = some (d.extractLsb' (8 * k) 8)) :
    m.read32 (a + i) = some (d.extractLsb' (8 * i) 32) := by
  refine Memory.read32_eq_some_iff_bytes.2 fun k hk => ?_
  rw [Nat.add_assoc, h (i + k) (by omega), extractLsb'_extractLsb' d (by omega), Nat.mul_add]

end Sys2Proof.Machine

/-! Memory: a word written again, a word's bytes, reads of mixed width (O38, O39, O40). -/

namespace Sys2Proof.Machine

open Sys2Proof

/-- Settles O38: after the first write the word is already there. -/
theorem repeatedWriteChangesNothing : Obligations.RepeatedWriteChangesNothing := by
  intro m a v hm
  refine ⟨fun hread hfit => Memory.write64_same hm hfit hread, fun m' h => ?_⟩
  obtain ⟨hread, -, hwf⟩ := Memory.write64_spec h
  have hfit : a + 8 ≤ addressSpace := (Memory.write64_isSome m a v).1 (by rw [h, Option.isSome_some])
  exact Memory.write64_same (hwf hm) hfit hread

/-- Settles O39: the word read back is the one written, so each of its bytes is. -/
theorem wordWriteStoresEightBytes : Obligations.WordWriteStoresEightBytes := by
  intro m a v
  refine ⟨Memory.write64_isSome m a v, fun m' h => ?_⟩
  obtain ⟨hread, hother, hwf⟩ := Memory.write64_spec h
  exact ⟨hread, Memory.read64_eq_some_iff_bytes.1 hread, hother, hwf⟩

/-- Settles O40: at every width the read is decided by the same eight bytes. -/
theorem mixedWidthReadsAgree : Obligations.MixedWidthReadsAgree := by
  intro m a d
  rw [Memory.read64_eq_some_iff_bytes]
  refine ⟨fun h => ⟨?_, ?_, h⟩, fun ⟨_, _, h⟩ => h⟩
  · exact Memory.read32_of_bytes (i := 0) (by omega) h
  · exact Memory.read32_of_bytes (i := 4) (by omega) h

/-- Settles O41: every move of a step stores inside the table. -/
theorem storesStayInTheTable : Obligations.StoresStayInTheTable :=
  fun _ _ h _ ha => step_read_outside_table h ha

end Sys2Proof.Machine

/-! One step: the command issued, or none (O16). -/

namespace Sys2Proof.Machine

open Sys2Proof

/-- With no command issued a step changes nothing (R139, log 20). -/
theorem step_of_input_nil {s : State} (h : s.input = []) : step s = .next s := by
  simp only [step, h]

/-- A step runs the command now issued (R41, R64). -/
theorem step_of_decode_ok {s : State} {p : Ports} {rest : List Ports} {i : Instr} (h : s.input = p :: rest)
    (hd : decodePorts p = .ok i) : step s = exec i (s.setInput rest) := by
  simp only [step, h, hd]

/-- A reserved code ends with `ReservedOp` (R65). -/
theorem step_of_decode_error {s : State} {p : Ports} {rest : List Ports} {r : Reject} (h : s.input = p :: rest)
    (hd : decodePorts p = .error r) : step s = .next ((s.setInput rest).setOut (.ofStatus .reservedOp)) := by
  cases r
  simp only [step, h, hd, reject, execReserved]

/-- The ports of a word that holds a command decode to it. -/
theorem decodePorts_of_decodeTableWord {nbits w : Nat} {i : Instr} (h : decodeTableWord nbits w = some i) :
    decodePorts (Ports.ofTableWord nbits w) = .ok i := by
  unfold decodeTableWord at h
  split at h
  case h_1 j hj => cases h; exact hj
  case h_2 => cases h

/-- Settles O16: one equation of `step` for each form of the input; the host's word is the head of the input. -/
theorem stepRunsTheIssuedCommand : Obligations.StepRunsTheIssuedCommand := by
  refine ⟨fun s => step_of_input_nil, fun s p rest hin => ⟨?_, ?_⟩, fun s nbits w i h => ?_⟩
  · exact fun i hd => step_of_decode_ok hin hd
  · exact fun r hd => step_of_decode_error hin hd
  · exact step_of_decode_ok (s := s.withFetchWord nbits w) rfl (decodePorts_of_decodeTableWord h)

end Sys2Proof.Machine

/-! The frame of the commands that store nothing (O45). -/

namespace Sys2Proof.Machine

open Sys2Proof

/-- Settles O45: a pure command writes the output ports; each outcome of `TR_LOAD` writes the registers it names. -/
theorem frameOfNonStoringCommands : Obligations.FrameOfNonStoringCommands := by
  rintro i s t (hi | rfl) h
  · obtain ⟨o, rfl⟩ := execPure_next hi h
    exact ⟨fun _ => rfl, rfl, rfl, rfl, fun _ => rfl, fun _ => ⟨rfl, rfl⟩, fun _ => ⟨rfl, rfl⟩, [], by simp⟩
  · have notPure : Instr.trLoad.isPure = true → t = { s with out := t.out } := fun hp => by cases hp
    obtain ⟨-, rfl⟩ | ⟨-, -, rfl⟩ | ⟨-, -, rfl⟩ := execTrLoad_next h
    · exact ⟨fun _ => rfl, rfl, rfl, rfl, notPure, fun _ => ⟨rfl, rfl⟩, fun hok => (by cases hok), [], by simp⟩
    · exact ⟨fun _ => rfl, rfl, rfl, rfl, notPure, fun _ => ⟨rfl, rfl⟩, fun hok => (by cases hok), [], by simp⟩
    · exact ⟨fun _ => rfl, rfl, rfl, rfl, notPure, fun hne => absurd rfl hne, fun _ => ⟨rfl, rfl⟩, _, rfl⟩

end Sys2Proof.Machine

/-! A descriptor fetch after an install (O44). -/

namespace Sys2Proof.Machine

open Sys2Proof

/-- The pointer handed to the processor holds the address of the table (R56, R100). -/
@[simp] theorem pointerAddress_makePointer (cfg : Config) : pointerAddress (makePointer cfg) = cfg.tableAddr := by
  apply BitVec.eq_of_getLsbD_eq
  intro i hi
  have hpos : 16 + i < 48 := by omega
  simp [pointerAddress, makePointer, pointerOf, hi, hpos]

/-- A selector holds its index in bits 15:3 (R57, R89). -/
@[simp] theorem selectorIndex_selectorOf (k : BitVec 13) (rpl : BitVec 2) :
    (selectorOf k rpl).extractLsb' Layout.selectorIndexPos 13 = k := by
  apply BitVec.eq_of_getLsbD_eq
  intro i hi
  have hpos : 3 + i < 16 := by omega
  have hrpl : rpl.getLsbD (3 + i) = false := BitVec.getLsbD_of_ge rpl (3 + i) (by omega)
  simp [selectorOf, hi, hpos, hrpl]

/-- While a table is loaded and no task register is, a fetch reads the table entry the selector's index names (R44). -/
theorem fetchDescriptor_selectorOf {s : State} (h : s.ev = eventsOf s.cfg .tssInstalled) (k : BitVec 13)
    (rpl : BitVec 2) : fetchDescriptor s (selectorOf k rpl) = s.entry k.toNat := by
  simp [fetchDescriptor, h, eventsOf, cachedPointer, State.entry, entryAddress]

/-- The limit of a TSS descriptor is the low 20 bits of the size minus one (R92, R97). -/
theorem limit20_sub_one {n : Word} (hn : n ≠ 0) : limit20 (n - 1) = BitVec.ofNat 20 (n.toNat - 1) := by
  have hle : (1 : Word) ≤ n := by bv_omega
  have hsub : (n - 1).toNat = n.toNat - 1 := BitVec.toNat_sub_of_le hle
  rw [limit20, BitVec.extractLsb', hsub, Nat.shiftRight_zero]

theorem tssDescriptor_eq_pack {n : Word} (a : Word) (hn : n ≠ 0) :
    tssDescriptor a n = pack a (BitVec.ofNat 20 (n.toNat - 1)) 0xE9 0b0000 := by
  have haccess : tssAccess = 0xE9 := by decide
  have hflags : tssFlags = 0b0000 := by decide
  rw [← limit20_sub_one hn, ← haccess, ← hflags]
  rfl

/-- Settles O44: the cached address is the table's, so the fetch reads the entry just stored. -/
theorem laterFetchSeesThePatchedEntry : Obligations.LaterFetchSeesThePatchedEntry := by
  intro s t k rpl a n hs h hok
  obtain ⟨-, rfl⟩ | ⟨-, c, rfl⟩ | ⟨-, hp, -, -, hn, -, m, hm, rfl⟩ := execInstallTss_next h
  · cases hok
  · cases hok
  · rw [← tssDescriptor_eq_pack a hn]
    refine ⟨rfl, (fetchDescriptor_selectorOf ?_ k rpl).trans ?_⟩
    · exact hs.events.trans (eventsOf_of_admitsInstall hp)
    · exact (storeEntry_spec hm).1

end Sys2Proof.Machine

/-! Two units that differ only in memory (O43). -/

namespace Sys2Proof.Machine

open Sys2Proof

/-! ### Two memories stored to alike -/

/-- Of two memories `m₁`, `m₂` and the memories `n₁`, `n₂` they became: each byte was stored with the same value in both, or
left as it was in both. -/
def StoredAlike (m₁ m₂ n₁ n₂ : Memory) : Prop :=
  ∀ a, n₂.read a = n₁.read a ∨ (n₂.read a = m₂.read a ∧ n₁.read a = m₁.read a)

theorem StoredAlike.refl (m₁ m₂ : Memory) : StoredAlike m₁ m₂ m₁ m₂ := fun _ => .inr ⟨rfl, rfl⟩

theorem StoredAlike.trans {m₁ m₂ n₁ n₂ p₁ p₂ : Memory} (h : StoredAlike m₁ m₂ n₁ n₂)
    (h' : StoredAlike n₁ n₂ p₁ p₂) : StoredAlike m₁ m₂ p₁ p₂ := by
  intro a
  obtain heq | ⟨hkept₂, hkept₁⟩ := h' a
  · exact .inl heq
  · rw [hkept₂, hkept₁]
    exact h a

/-- An entry store takes place in any memory or in none, and stores the same bytes (R47). -/
theorem storeEntry_alike {cfg : Config} {i : Nat} {v : Descriptor} {m₁ n₁ : Memory} (m₂ : Memory)
    (h : storeEntry cfg i v m₁ = some n₁) :
    ∃ n₂, storeEntry cfg i v m₂ = some n₂ ∧ StoredAlike m₁ m₂ n₁ n₂ := by
  have hfit : entryAddress cfg i + 8 ≤ addressSpace := (storeEntry_isSome cfg i v m₁).1 (by rw [h, Option.isSome_some])
  obtain ⟨n₂, h₂⟩ := Option.isSome_iff_exists.1 ((storeEntry_isSome cfg i v m₂).2 hfit)
  refine ⟨n₂, h₂, fun a => ?_⟩
  obtain ⟨hword₁, hother₁, -⟩ := storeEntry_spec h
  obtain ⟨hword₂, hother₂, -⟩ := storeEntry_spec h₂
  by_cases hin : entryAddress cfg i ≤ a ∧ a < entryAddress cfg i + 8
  · obtain ⟨k, rfl⟩ := Nat.exists_eq_add_of_le hin.1
    have hk : k < 8 := by omega
    exact .inl ((Memory.read_of_read64 hword₂ hk).trans (Memory.read_of_read64 hword₁ hk).symm)
  · exact .inr ⟨hother₂ a (by omega), hother₁ a (by omega)⟩

/-- The stores of consecutive entries take place in any memory or in none, and store the same bytes. -/
theorem storeEntries_alike {cfg : Config} {i : Nat} {vs : List Descriptor} {m₁ n₁ : Memory} (m₂ : Memory)
    (h : storeEntries cfg i vs m₁ = some n₁) :
    ∃ n₂, storeEntries cfg i vs m₂ = some n₂ ∧ StoredAlike m₁ m₂ n₁ n₂ := by
  induction vs generalizing i m₁ m₂ with
  | nil => cases h; exact ⟨m₂, rfl, .refl _ _⟩
  | cons v vs ih =>
    unfold storeEntries at h
    split at h
    case h_1 => cases h
    case h_2 p₁ hp₁ =>
      obtain ⟨p₂, hp₂, hfirst⟩ := storeEntry_alike m₂ hp₁
      obtain ⟨n₂, hn₂, hrest⟩ := ih p₂ h
      exact ⟨n₂, by rw [storeEntries, hp₂]; exact hn₂, hfirst.trans hrest⟩

/-! ### The three steps of the sequence -/

/-- A step of the sequence that reads no memory (R38): from another memory it gives the same result, in a state that
differs only in memory, and it has stored the same bytes. -/
def ReadsNoMemory (f : State → SeqStep) : Prop :=
  ∀ (s : State) (m : Memory) (c : Status) (t : State), f s = .next (c, t) →
    ∃ m', f (s.setMem m) = .next (c, t.setMem m') ∧ StoredAlike s.mem m t.mem m'

theorem readsNoMemory_refuseHalted : ReadsNoMemory refuseHalted := by
  intro s m c t h
  cases h
  exact ⟨m, rfl, .refl _ _⟩

theorem readsNoMemory_raiseConfigError (e : ConfigError) : ReadsNoMemory (raiseConfigError e) := by
  intro s m c t h
  cases h
  exact ⟨m, rfl, .refl _ _⟩

/-- A check that does not depend on memory, between two steps that read no memory. -/
theorem ReadsNoMemory.ite {p : State → Prop} [DecidablePred p] {f g : State → SeqStep}
    (hp : ∀ s m, p (s.setMem m) ↔ p s) (hf : ReadsNoMemory f) (hg : ReadsNoMemory g) :
    ReadsNoMemory fun s => if p s then f s else g s := by
  intro s m c t h
  by_cases hs : p s
  · simp only [hp, hs, if_true] at h ⊢
    exact hf s m c t h
  · simp only [hp, hs, if_false] at h ⊢
    exact hg s m c t h

theorem readsNoMemory_tableLoadOp : ReadsNoMemory tableLoadOp := by
  refine .ite (fun _ _ => Iff.rfl) readsNoMemory_refuseHalted <|
    .ite (fun _ _ => Iff.rfl) (readsNoMemory_raiseConfigError _) ?_
  intro s m c t h
  dsimp only at h
  split at h
  case h_1 => cases h
  case h_2 n hn =>
    cases h
    obtain ⟨n', hn', halike⟩ := storeEntries_alike m hn
    exact ⟨n', by simp only [State.setMem_cfg, State.setMem_mem, hn']; rfl, halike⟩

theorem readsNoMemory_installTssOp (i : Nat) (a n : Word) : ReadsNoMemory (installTssOp i a n) := by
  refine .ite (fun _ _ => Iff.rfl) readsNoMemory_refuseHalted <|
    .ite (fun _ _ => Iff.rfl) (readsNoMemory_raiseConfigError _) <|
    .ite (fun _ _ => Iff.rfl) (readsNoMemory_raiseConfigError _) <|
    .ite (fun _ _ => Iff.rfl) (readsNoMemory_raiseConfigError _) <|
    .ite (fun _ _ => Iff.rfl) (readsNoMemory_raiseConfigError _) ?_
  intro s m c t h
  dsimp only at h
  split at h
  case h_1 => cases h
  case h_2 n hn =>
    cases h
    obtain ⟨n', hn', halike⟩ := storeEntry_alike m hn
    exact ⟨n', by simp only [State.setMem_cfg, State.setMem_mem, hn']; rfl, halike⟩

theorem readsNoMemory_trLoadOp : ReadsNoMemory trLoadOp := by
  refine .ite (fun _ _ => Iff.rfl) readsNoMemory_refuseHalted <|
    .ite (fun _ _ => Iff.rfl) (readsNoMemory_raiseConfigError _) ?_
  intro s m c t h
  cases h
  exact ⟨m, rfl, .refl _ _⟩

theorem readsNoMemory_initOp (a n : Word) : ReadsNoMemory (initOp a n) := by
  refine .ite (fun _ _ => Iff.rfl) readsNoMemory_refuseHalted <|
    .ite (fun _ _ => Iff.rfl) (readsNoMemory_raiseConfigError _) ?_
  intro s m c t h
  dsimp only at h ⊢
  cases hload : tableLoadOp s with
  | fault f => rw [hload] at h; cases h
  | refused r => rw [hload] at h; cases h
  | next r₁ =>
    obtain ⟨c₁, s₁⟩ := r₁
    obtain ⟨m₁, hload', hfirst⟩ := readsNoMemory_tableLoadOp s m c₁ s₁ hload
    simp only [hload] at h
    simp only [hload', State.setMem_cfg]
    cases hinstall : installTssOp s.cfg.idxTss a n s₁ with
    | fault f => rw [hinstall] at h; cases h
    | refused r => rw [hinstall] at h; cases h
    | next r₂ =>
      obtain ⟨c₂, s₂⟩ := r₂
      obtain ⟨m₂, hinstall', hsecond⟩ := readsNoMemory_installTssOp _ a n s₁ m₁ c₂ s₂ hinstall
      rw [hinstall] at h
      rw [hinstall']
      cases c₂ with
      | ok =>
        obtain ⟨m', htr, hthird⟩ := readsNoMemory_trLoadOp s₂ m₂ c t h
        exact ⟨m', htr, (hfirst.trans hsecond).trans hthird⟩
      | error | reservedOp | halted => cases h; exact ⟨m₂, rfl, hfirst.trans hsecond⟩

/-! ### Commands and steps -/

/-- A sequenced command reads no memory when its step does not. -/
theorem ReadsNoMemory.complete {f : State → SeqStep} (hf : ReadsNoMemory f) {s t : State} (m : Memory)
    (h : complete (f s) = .next t) :
    ∃ m', complete (f (s.setMem m)) = .next (t.setMem m') ∧ StoredAlike s.mem m t.mem m' := by
  obtain ⟨c, u, hu, rfl⟩ := complete_next h
  obtain ⟨m', hu', halike⟩ := hf s m c u hu
  exact ⟨m', by rw [hu']; rfl, halike⟩

/-- A pure command answers the same from any memory (R79). -/
theorem execPure_setMem {i : Instr} {s t : State} (hi : i.isPure = true) (m : Memory) (h : exec i s = .next t) :
    exec i (s.setMem m) = .next (t.setMem m) := by
  cases i with
  | encode b l a f =>
    simp only [exec, execEncode] at h ⊢
    split at h
    case isTrue hl => cases h; exact if_pos hl
    case isFalse hl => cases h; exact if_neg hl
  | decode | selector => cases h; rfl
  | tableLoad | installTss | trLoad | init => cases hi

/-- No command reads memory (R38). -/
theorem exec_setMem {i : Instr} {s t : State} (m : Memory) (h : exec i s = .next t) :
    ∃ m', exec i (s.setMem m) = .next (t.setMem m') ∧ StoredAlike s.mem m t.mem m' := by
  cases hi : i.isPure with
  | true =>
    obtain ⟨o, ho⟩ := execPure_next hi h
    exact ⟨m, execPure_setMem hi m h, by rw [ho]; exact .refl _ _⟩
  | false =>
    cases i with
    | encode | decode | selector => cases hi
    | tableLoad => exact readsNoMemory_tableLoadOp.complete m h
    | installTss k a n => exact (readsNoMemory_installTssOp k.toNat a n).complete m h
    | trLoad => exact readsNoMemory_trLoadOp.complete m h
    | init a n => exact (readsNoMemory_initOp a n).complete m h

/-- Settles O43: the command issued reads no memory, and neither does the decoder. -/
theorem noCommandReadsMemory : Obligations.NoCommandReadsMemory := by
  intro s t m h
  obtain ⟨hin, rfl⟩ | ⟨p, rest, hin, ⟨i, hd, he⟩ | ⟨r, hd, rfl⟩⟩ := step_next h
  · exact ⟨m, step_of_input_nil hin, StoredAlike.refl _ _⟩
  · obtain ⟨m', he', halike⟩ := exec_setMem m he
    exact ⟨m', (step_of_decode_ok (s := s.setMem m) hin hd).trans he', halike⟩
  · exact ⟨m, step_of_decode_error (s := s.setMem m) hin hd, StoredAlike.refl _ _⟩

end Sys2Proof.Machine

/-! The opcode map, and the decoder and the encoder on the ports (O13, O14). -/

namespace Sys2Proof

/-- The pure commands are those of codes 1 to 3 (R64). -/
theorem Instr.isPure_iff_opcode (i : Instr) :
    i.isPure = true ↔ i.opcode = 0x1 ∨ i.opcode = 0x2 ∨ i.opcode = 0x3 := by
  cases i <;> simp [Instr.isPure, Instr.opcode]

/-- The sequenced commands are those of codes 4 to 7 (R64). -/
theorem Instr.isSequenced_iff_opcode (i : Instr) :
    i.isSequenced = true ↔ i.opcode = 0x4 ∨ i.opcode = 0x5 ∨ i.opcode = 0x6 ∨ i.opcode = 0x7 := by
  cases i <;> simp [Instr.isSequenced, Instr.isPure, Instr.opcode]

/-- A command is decoded only from its own operation code (R64). -/
theorem op_eq_opcode_of_decodePorts {p : Ports} {i : Instr} (h : decodePorts p = .ok i) : p.op = i.opcode := by
  unfold decodePorts at h
  split at h
  case h_8 => cases h
  all_goals
    rename_i hop
    cases h
    exact BitVec.eq_of_toNat_eq hop

/-- A decoded command, put back on the ports, gives the ports it reads and zero elsewhere (R60). -/
theorem encodePorts_of_decodePorts {p : Ports} {i : Instr} (h : decodePorts p = .ok i) : encodePorts i = p.readBy := by
  have hop := op_eq_opcode_of_decodePorts h
  obtain ⟨op, base, limit, access, flags, descIn, index, rpl, tssIndex, tssAddress, tssSize⟩ := p
  cases i with
  | encode | decode | selector | tableLoad | installTss | trLoad | init =>
    simp only [Instr.opcode] at hop
    cases hop
    cases h
    rfl

/-- Settles O13: `op` is the command's code, and each arm of the decoder takes the ports `readBy` keeps. -/
theorem decodedPortsEncodeBack : Obligations.DecodedPortsEncodeBack :=
  fun _ _ h => ⟨encodePorts_of_decodePorts h, fun hcanonical => (encodePorts_of_decodePorts h).trans hcanonical⟩

/-- Codes 0 and 8 to 15 name no command (R65). -/
theorem decodePorts_of_reserved {p : Ports} (h : p.op = 0x0 ∨ 0x8 ≤ p.op) :
    decodePorts p = .error (.reservedOp p.op) := by
  have hcode : p.op.toNat = 0 ∨ 8 ≤ p.op.toNat := h.imp (congrArg BitVec.toNat) BitVec.le_def.1
  unfold decodePorts
  split
  case h_8 => rfl
  all_goals omega

/-- Settles O14: one arm of the decoder for each code. -/
theorem opcodeMap : Obligations.OpcodeMap := by
  refine ⟨Instr.isPure_iff_opcode, Instr.isSequenced_iff_opcode, fun p => ?_⟩
  refine ⟨?_, ?_, ?_, ?_, ?_, ?_, ?_, decodePorts_of_reserved⟩
  all_goals
    intro hop
    simp [decodePorts, hop]

end Sys2Proof

/-! The bytes of a command (O12, O15). -/

namespace Sys2Proof

/-- Every command has the port form of its constructor. -/
theorem portForm (i : Instr) : Laws.PortForm.Statement i := by
  cases i with
  | encode base limit access flags => exact Laws.PortForm.encode base limit access flags
  | decode d => exact Laws.PortForm.decode d
  | selector index rpl => exact Laws.PortForm.selector index rpl
  | tableLoad => exact Laws.PortForm.tableLoad
  | installTss k a n => exact Laws.PortForm.installTss k a n
  | trLoad => exact Laws.PortForm.trLoad
  | init a n => exact Laws.PortForm.init a n

/-- The decoder undoes the encoder on the ports (R59, R60). -/
theorem decodePorts_encodePorts (i : Instr) : decodePorts (encodePorts i) = .ok i := by
  obtain ⟨-, -, hdecode⟩ := portForm i
  exact hdecode

/-- Settles O12: the 32 bytes are the image of the command's ports, and those decode to it. -/
theorem bytesOfACommandDecodeToIt : Obligations.BytesOfACommandDecodeToIt := by
  refine fun i => ⟨length_bytesLE 32 _, ?_⟩
  rw [decodeBytes, image_of_encodeBytes, decodePorts_encodePorts]

/-- Settles O15: the decoder run on the six words. -/
theorem writtenOutCommandsDecode : Obligations.WrittenOutCommandsDecode := by
  unfold Obligations.WrittenOutCommandsDecode
  decide

end Sys2Proof

/-! SUPPORT. The fields of a value shifted into place. -/

namespace Sys2Proof

/-- A value shifted to bit `pos` is the field of its own width there. -/
theorem extractLsb'_setWidth_shiftLeft_same {w n pos : Nat} (v : BitVec w) (h : pos + w ≤ n) :
    (v.setWidth n <<< pos).extractLsb' pos w = v := by
  apply BitVec.eq_of_getLsbD_eq
  intro i hi
  have hin : pos + i < n := by omega
  simp [hi, hin]

/-- A value shifted to bit `pos` has only zeros below that bit and above its own width. -/
theorem extractLsb'_setWidth_shiftLeft_disjoint {w n pos start len : Nat} (v : BitVec w)
    (h : start + len ≤ pos ∨ pos + w ≤ start) : (v.setWidth n <<< pos).extractLsb' start len = 0 := by
  apply BitVec.eq_of_getLsbD_eq
  intro i hi
  obtain hbelow | habove := h
  · have hlt : start + i < pos := by omega
    simp [hlt]
  · have hzero : v.getLsbD (start + i - pos) = false := BitVec.getLsbD_of_ge _ _ (by omega)
    simp [hzero]

end Sys2Proof

/-! The access byte and the flags nibble (O3). -/

namespace Sys2Proof.Machine

open Sys2Proof

/-- The access byte holds each of its fields (R51). -/
theorem accessByte_fields (p : BitVec 1) (dpl : BitVec 2) (s : BitVec 1) (type : BitVec 4) :
    accessPresent (accessByte p dpl s type) = p ∧ accessDpl (accessByte p dpl s type) = dpl ∧
    accessS (accessByte p dpl s type) = s ∧ accessType (accessByte p dpl s type) = type := by
  unfold accessPresent accessDpl accessS accessType accessByte
  simp (disch := decide) only [BitVec.extractLsb'_or, extractLsb'_setWidth_shiftLeft_same,
    extractLsb'_setWidth_shiftLeft_disjoint]
  simp

/-- The flags nibble holds each of its bits (R52). -/
theorem flagsNibble_bits (g db l avl : BitVec 1) :
    fnGranularity (flagsNibble g db l avl) = g ∧ fnOperandSize (flagsNibble g db l avl) = db ∧
    fnLong (flagsNibble g db l avl) = l ∧ fnAvailable (flagsNibble g db l avl) = avl := by
  unfold fnGranularity fnOperandSize fnLong fnAvailable flagsNibble
  simp (disch := decide) only [BitVec.extractLsb'_or, extractLsb'_setWidth_shiftLeft_same,
    extractLsb'_setWidth_shiftLeft_disjoint]
  simp

/-- Settles O3: each field read back; the seven values worked out. -/
theorem attributesReadBack : Obligations.AttributesReadBack :=
  ⟨accessByte_fields, flagsNibble_bits, rfl, rfl, rfl, rfl, rfl, rfl, rfl⟩

end Sys2Proof.Machine

/-! What a command leaves on the output ports (O35), and reserved codes (O17). -/

namespace Sys2Proof.Machine

open Sys2Proof

/-- Settles O17: the decoder names no command, and a step without one writes `ReservedOp` alone. -/
theorem reservedCodeChangesNothing : Obligations.ReservedCodeChangesNothing :=
  fun _ _ _ hin hop => step_of_decode_error hin (decodePorts_of_reserved hop)

/-- A sequenced command writes `status` and no other port (R61). -/
theorem execSequenced_out {i : Instr} {s t : State} (hi : i.isSequenced = true) (h : exec i s = .next t) :
    ∃ c, t.out = .ofStatus c := by
  cases i with
  | encode | decode | selector => cases hi
  | tableLoad | installTss | trLoad | init =>
    obtain ⟨c, u, -, rfl⟩ := complete_next h
    exact ⟨c, rfl⟩

/-- What a command leaves on the output ports: its own results with `Ok`, or `status` alone, which is `Ok` only for a
sequenced command (R61). -/
theorem exec_out {i : Instr} {s t : State} (h : exec i s = .next t) :
    (i.opcode = 0x1 ∧ ∃ d, t.out = .encoded d) ∨
    (i.opcode = 0x2 ∧ ∃ base limit access flags, t.out = .decoded base limit access flags) ∨
    (i.opcode = 0x3 ∧ ∃ x, t.out = .selected x) ∨
    (∃ c, t.out = .ofStatus c ∧ (c = .ok → i.isSequenced = true)) := by
  cases i with
  | encode base limit access flags =>
    simp only [exec, execEncode] at h
    split at h
    case isTrue => cases h; exact .inr (.inr (.inr ⟨_, rfl, fun hok => by cases hok⟩))
    case isFalse => cases h; exact .inl ⟨rfl, _, rfl⟩
  | decode d => cases h; exact .inr (.inl ⟨rfl, _, _, _, _, rfl⟩)
  | selector index rpl => cases h; exact .inr (.inr (.inl ⟨rfl, _, rfl⟩))
  | tableLoad | installTss | trLoad | init =>
    obtain ⟨c, hout⟩ := execSequenced_out rfl h
    exact .inr (.inr (.inr ⟨c, hout, fun _ => rfl⟩))

/-- Settles O35: each form of the output ports goes with the codes of the commands that leave it. -/
theorem onlyTheCommandsPortsAreWritten : Obligations.OnlyTheCommandsPortsAreWritten := by
  intro i s t h
  rw [Instr.isSequenced_iff_opcode]
  obtain ⟨hop, d, hout⟩ | ⟨hop, base, limit, access, flags, hout⟩ | ⟨hop, x, hout⟩ | ⟨c, hout, hseq⟩ := exec_out h
  · simp [hop, hout, Outputs.encoded]
  · simp [hop, hout, Outputs.decoded]
  · simp [hop, hout, Outputs.selected]
  · have hnone : (Outputs.ofStatus c).hasResult = false := rfl
    rw [Instr.isSequenced_iff_opcode] at hseq
    rw [hout]
    refine ⟨⟨c, rfl⟩, fun _ => hnone, fun _ => hnone, fun hok => ?_⟩
    obtain hop | hop | hop | hop := hseq (Option.some.inj hok) <;> simp [hop, Outputs.ofStatus]

end Sys2Proof.Machine

/-! The configuration (O48). -/

namespace Sys2Proof.Machine

open Sys2Proof

/-- No run changes the configuration (R63). -/
theorem run_cfg_eq {k : Nat} {s t : State} (h : Sys2Proof.core.run k s = .next t) : t.cfg = s.cfg := by
  induction k generalizing s with
  | zero => cases h; rfl
  | succ k ih =>
    obtain ⟨u, hstep, hrun⟩ := core_run_succ.1 h
    exact (ih hrun).trans (step_cfg_eq hstep)

/-- Settles O48: every move of a step keeps the configuration; a run by induction on its steps. -/
theorem configurationIsConstant : Obligations.ConfigurationIsConstant :=
  ⟨fun _ _ => step_cfg_eq, fun _ _ _ => run_cfg_eq⟩

end Sys2Proof.Machine

/-! SUPPORT. Concatenations of fields: adjacent fields of one word, the bytes of a descriptor, the nibbles of a byte. -/

namespace Sys2Proof

/-- Two adjacent fields at the end of a concatenation are one field there. -/
theorem append_extractLsb'_append_extractLsb' {m w s₁ s₂ l₁ l₂ : Nat} (x : BitVec m) (v : BitVec w)
    (h : s₂ = s₁ + l₁) : x ++ v.extractLsb' s₂ l₂ ++ v.extractLsb' s₁ l₁ =
      (x ++ v.extractLsb' s₁ (l₂ + l₁)).cast (Nat.add_assoc m l₂ l₁).symm := by
  rw [BitVec.append_assoc, BitVec.extractLsb'_append_extractLsb'_eq_extractLsb' h]

/-- The eight bytes of a descriptor, least significant first (R35, R48). -/
theorem bytesLE_descriptor (d : Descriptor) :
    bytesLE 8 d.toNat = [d.extractLsb' 0 8, d.extractLsb' 8 8, d.extractLsb' 16 8, d.extractLsb' 24 8,
      d.extractLsb' 32 8, d.extractLsb' 40 8, d.extractLsb' 48 8, d.extractLsb' 56 8] := by
  have hbytes : bytesLE 8 d.toNat = (List.range 8).map fun k => d.extractLsb' (8 * k) 8 :=
    List.ext_getElem (by simp) fun k hk _ => by simp [bytesLE_toNat_getElem d hk]
  exact hbytes

/-- A byte is its high nibble and then its low nibble. -/
theorem highNibble_append_lowNibble (b : Byte) : b.extractLsb' 4 4 ++ b.extractLsb' 0 4 = b :=
  BitVec.extractLsb'_append_extractLsb' (w := 4) (len := 4)

theorem and_lowNibble_mask (b : Byte) : b &&& 0x0F = 0#4 ++ b.extractLsb' 0 4 := by
  have hmask : (0x0F : Byte) = 0#4 ++ BitVec.allOnes 4 := by decide
  conv_lhs =>
    rw [← highNibble_append_lowNibble b, hmask, BitVec.and_append, BitVec.and_allOnes, BitVec.and_zero]

theorem and_highNibble_mask (b : Byte) : b &&& 0xF0 = b.extractLsb' 4 4 ++ 0#4 := by
  have hmask : (0xF0 : Byte) = BitVec.allOnes 4 ++ 0#4 := by decide
  conv_lhs =>
    rw [← highNibble_append_lowNibble b, hmask, BitVec.and_append, BitVec.and_allOnes, BitVec.and_zero]

end Sys2Proof

/-! The descriptor as a concatenation: `pack`, `unpack`, and each undoing the other; the addressable range (O1, O2, O5). -/

namespace Sys2Proof.Machine

open Sys2Proof

/-- A concatenation in place is its two parts in place. -/
theorem place_append {h l : Nat} (pos : Nat) (hi : BitVec h) (lo : BitVec l) :
    place pos (hi ++ lo) = place (l + pos) hi ||| place pos lo := by
  simp only [place, BitVec.setWidth_append_eq_shiftLeft_setWidth_or, BitVec.shiftLeft_or_distrib, BitVec.shiftLeft_add]

theorem place_zero (d : Descriptor) : place 0 d = d := by
  rw [place, BitVec.shiftLeft_zero, BitVec.setWidth_eq]

/-- `pack` is the concatenation R70 prints: the whole, in place at bit 0, is its sub-fields in place. -/
theorem pack_eq_append (base : Word) (lim20 : BitVec 20) (access : Byte) (fn : BitVec 4) :
    pack base lim20 access fn = base.extractLsb' 24 8 ++ fn ++ lim20.extractLsb' 16 4 ++ access ++
      base.extractLsb' 0 24 ++ lim20.extractLsb' 0 16 := by
  have hbase : base.extractLsb' 0 24 = base.extractLsb' 16 8 ++ base.extractLsb' 0 16 :=
    (BitVec.extractLsb'_append_extractLsb'_eq_extractLsb' (start₁ := 0) (len₁ := 16) (len₂ := 8) rfl).symm
  have hleft (a b c : Descriptor) : a ||| (b ||| c) = b ||| (a ||| c) := by ac_rfl
  rw [← place_zero (_ ++ _), hbase, pack]
  repeat rw [place_append]
  simp only [Nat.reduceAdd, BitVec.or_assoc, BitVec.or_comm, hleft]

/-- `unpack` is the tuple R71 prints. -/
theorem unpack_eq (d : Descriptor) :
    unpack d = ⟨d.extractLsb' 56 8 ++ d.extractLsb' 16 24, d.extractLsb' 48 4 ++ d.extractLsb' 0 16,
      d.extractLsb' 40 8, d.extractLsb' 52 4⟩ := by
  have hbase : d.extractLsb' 56 8 ++ d.extractLsb' 32 8 ++ d.extractLsb' 16 16 =
      d.extractLsb' 56 8 ++ d.extractLsb' 16 24 := append_extractLsb'_append_extractLsb' _ d rfl
  rw [unpack, hbase]

/-- `unpack` undoes `pack` (R77). -/
@[simp] theorem unpack_pack (base : Word) (lim20 : BitVec 20) (access : Byte) (fn : BitVec 4) :
    unpack (pack base lim20 access fn) = ⟨base, lim20, access, fn⟩ := by
  have hbase : base.extractLsb' 24 8 ++ base.extractLsb' 0 24 = base :=
    BitVec.extractLsb'_append_extractLsb' (w := 8) (len := 24)
  have hlim : lim20.extractLsb' 16 4 ++ lim20.extractLsb' 0 16 = lim20 :=
    BitVec.extractLsb'_append_extractLsb' (w := 4) (len := 16)
  rw [unpack_eq, pack_eq_append]
  simp (disch := decide) only [extractLsb'_append_high, extractLsb'_append_low, Nat.reduceSub, extractLsb'_whole,
    hbase, hlim]

/-- `pack` undoes `unpack` (R77). -/
@[simp] theorem pack_unpack (d : Descriptor) :
    pack (unpack d).base (unpack d).lim20 (unpack d).access (unpack d).fn = d := by
  rw [unpack_eq, pack_eq_append]
  simp (disch := decide) only [extractLsb'_append_high, extractLsb'_append_low, Nat.reduceSub, extractLsb'_whole]
  repeat rw [BitVec.extractLsb'_append_extractLsb'_eq_extractLsb' (by decide)]
  exact extractLsb'_whole d

/-- Settles O1: each byte is a field of the concatenation, byte 6 the only one across two sub-fields. -/
theorem packPlacesEachSubField : Obligations.PackPlacesEachSubField := by
  refine ⟨fun base lim access fn => ⟨pack_eq_append base lim access fn, ?_⟩, by decide⟩
  have hbyte6 : (base.extractLsb' 24 8 ++ fn ++ lim.extractLsb' 16 4).extractLsb' 0 8 =
      fn.setWidth 8 <<< 4 ||| (lim.extractLsb' 16 4).setWidth 8 := by
    rw [← BitVec.setWidth_eq_extractLsb' (by decide), BitVec.setWidth_append_append_eq_shiftLeft_setWidth_or,
      BitVec.shiftLeft_eq_zero (by decide), BitVec.zero_or]
  rw [bytesLE_descriptor, pack_eq_append, ← hbyte6]
  simp (disch := decide) only [extractLsb'_append_high, extractLsb'_append_low, extractLsb'_extractLsb', Nat.reduceSub,
    extractLsb'_whole]

/-- Settles O2: the bytes are the word's own, and the fields their concatenations. -/
theorem unpackReversesTheSplit : Obligations.UnpackReversesTheSplit := by
  refine ⟨fun d => ⟨unpack_eq d, ?_⟩, by decide⟩
  intro b0 b1 b2 b3 b4 b5 b6 b7 h
  rw [bytesLE_descriptor] at h
  cases h
  refine ⟨?base, ?lim20, rfl, ?fn⟩
  case base =>
    have hjoin : d.extractLsb' 56 8 ++ d.extractLsb' 32 8 ++ d.extractLsb' 24 8 ++ d.extractLsb' 16 8 =
        d.extractLsb' 56 8 ++ d.extractLsb' 32 8 ++ d.extractLsb' 16 16 :=
      append_extractLsb'_append_extractLsb' (d.extractLsb' 56 8 ++ d.extractLsb' 32 8) d rfl
    exact hjoin.symm.trans
      ((BitVec.setWidth_eq _).symm.trans BitVec.setWidth_append_append_append_eq_shiftLeft_setWidth_or)
  case lim20 =>
    have hjoin : d.extractLsb' 48 4 ++ d.extractLsb' 8 8 ++ d.extractLsb' 0 8 =
        d.extractLsb' 48 4 ++ d.extractLsb' 0 16 :=
      append_extractLsb'_append_extractLsb' (d.extractLsb' 48 4) d rfl
    have hnibble : (d.extractLsb' 48 8 &&& 0x0F).setWidth 20 = (d.extractLsb' 48 4).setWidth 20 := by
      rw [and_lowNibble_mask, extractLsb'_extractLsb' d (by decide), BitVec.setWidth_append_eq_shiftLeft_setWidth_or,
        BitVec.setWidth_zero, BitVec.zero_shiftLeft, BitVec.zero_or]
    rw [hnibble]
    exact hjoin.symm.trans ((BitVec.setWidth_eq _).symm.trans BitVec.setWidth_append_append_eq_shiftLeft_setWidth_or)
  case fn =>
    rw [BitVec.setWidth_ushiftRight_eq_extractLsb, extractLsb'_extractLsb' d (by decide)]
    rfl

/-- The unit the limit scales by, from bit 3 of the flags nibble (R52, R78). -/
theorem limitUnit_eq (fn : BitVec 4) : limitUnit fn = if fn.getLsbD 3 then 4096 else 1 := by
  simp only [limitUnit, fnGranularity, BitVec.getLsbD_eq_extractLsb', beq_iff_eq]
  rfl

/-- Settles O5: `span` reads the fields `unpack` gives, and those of a packed word are the ones it was packed from. -/
theorem spanIsLimitScaledByGranularity : Obligations.SpanIsLimitScaledByGranularity := by
  refine ⟨fun base lim access fn => ?_, fun d => ⟨_, _, _, _, (pack_unpack d).symm, rfl⟩, by decide⟩
  rw [span, unpack_pack, limitUnit_eq]

end Sys2Proof.Machine

/-! The operands of `ENCODE`: the flags (R72, R73; O4) and the limit (R74). -/

namespace Sys2Proof.Machine

open Sys2Proof

/-- `flags_in` undoes `flags_out` (R73). -/
@[simp] theorem flagsIn_flagsOut (al : FlagsAlign) (fn : BitVec 4) : flagsIn al (flagsOut al fn) = fn := by
  cases al with
  | low => exact BitVec.extractLsb'_append_eq_right
  | high => exact BitVec.extractLsb'_append_eq_left

/-- Under `LOW`, the flags come back with the high nibble cleared (R73). -/
theorem flagsOut_flagsIn_low (f : Byte) : flagsOut .low (flagsIn .low f) = f &&& 0x0F := (and_lowNibble_mask f).symm

/-- Under `HIGH`, the flags come back with the low nibble cleared (R73). -/
theorem flagsOut_flagsIn_high (f : Byte) : flagsOut .high (flagsIn .high f) = f &&& 0xF0 := (and_highNibble_mask f).symm

/-- Settles O4: a byte is its two nibbles, so it comes back whole exactly when the cleared one was zero. -/
theorem flagsOperandKeepsOneNibble : Obligations.FlagsOperandKeepsOneNibble := by
  refine ⟨fun f => ⟨rfl, rfl⟩, fun fn => ⟨(BitVec.setWidth_eq_append (by decide)).symm, rfl⟩,
    flagsIn_flagsOut, fun f => ?low, fun f => ?high⟩
  case low =>
    conv_lhs => rhs; rw [← highNibble_append_lowNibble f]
    exact (BitVec.append_left_inj _).trans eq_comm
  case high =>
    conv_lhs => rhs; rw [← highNibble_append_lowNibble f]
    exact (BitVec.append_right_inj _).trans eq_comm

/-- `ENCODE` refuses a limit above 20 bits under `REJECT` (R74). -/
theorem limitRejected_eq_true_iff {cfg : Config} {limit : Word} :
    limitRejected cfg limit = true ↔ 0xFFFFF < limit.toNat ∧ cfg.limitPolicy = .reject := by
  rw [limitRejected, Bool.and_eq_true, decide_eq_true_iff, decide_eq_true_iff]
  rfl

/-- `ENCODE` accepts a limit of 20 bits, and any limit under `TRUNCATE` (R74). -/
theorem limitRejected_eq_false_iff {cfg : Config} {limit : Word} :
    limitRejected cfg limit = false ↔ limit.toNat ≤ 0xFFFFF ∨ cfg.limitPolicy = .truncate := by
  have hpolicy : cfg.limitPolicy ≠ .reject ↔ cfg.limitPolicy = .truncate := by cases cfg.limitPolicy <;> decide
  rw [← Bool.not_eq_true, limitRejected_eq_true_iff, not_and_or, not_lt, ← hpolicy]

/-- A limit zero-extended from 20 bits is accepted under either policy. -/
theorem limitRejected_setWidth (cfg : Config) (lim : BitVec 20) : limitRejected cfg (lim.setWidth 32) = false := by
  have hlt := lim.isLt
  refine limitRejected_eq_false_iff.2 (.inl ?_)
  rw [BitVec.toNat_setWidth_of_le (by decide)]
  omega

@[simp] theorem limit20_setWidth (lim : BitVec 20) : limit20 (lim.setWidth 32) = lim := by
  rw [limit20, BitVec.extractLsb'_setWidth_of_le (by decide), extractLsb'_whole]

theorem toNat_setWidth_limit20 (limit : Word) : ((limit20 limit).setWidth 32).toNat = limit.toNat % 2 ^ 20 := by
  rw [BitVec.toNat_setWidth_of_le (by decide), limit20, BitVec.extractLsb'_toNat, Nat.shiftRight_zero]

/-- A limit cut to 20 bits and zero-extended is the limit with its high 12 bits dropped (R74). -/
theorem setWidth_limit20 (limit : Word) : (limit20 limit).setWidth 32 = limit &&& 0x000FFFFF#32 := by
  apply BitVec.eq_of_toNat_eq
  rw [toNat_setWidth_limit20, BitVec.toNat_and, ← Nat.and_two_pow_sub_one_eq_mod]
  rfl

/-- A limit of 20 bits comes back whole (R76). -/
theorem setWidth_limit20_of_le {limit : Word} (h : limit.toNat ≤ 0xFFFFF) : (limit20 limit).setWidth 32 = limit := by
  apply BitVec.eq_of_toNat_eq
  rw [toNat_setWidth_limit20, Nat.mod_eq_of_lt (by omega)]

end Sys2Proof.Machine

/-! `ENCODE` and `DECODE`: their results and the round trips (O6, O7, O18, O19, O21). -/

namespace Sys2Proof.Machine

open Sys2Proof

/-! ### The meaning of each command, case by case -/

/-- `ENCODE` of an accepted limit (R74). -/
theorem exec_encode_of_accepted {s : State} {limit : Word} (h : limitRejected s.cfg limit = false)
    (base : Word) (access flags : Byte) : exec (.encode base limit access flags) s =
      .next (s.setOut (.encoded (encodeResult s.cfg base limit access flags))) := by
  rw [exec, execEncode, h]
  rfl

/-- `ENCODE` of a refused limit (R74, R122). -/
theorem exec_encode_of_rejected {s : State} {limit : Word} (h : limitRejected s.cfg limit = true)
    (base : Word) (access flags : Byte) : exec (.encode base limit access flags) s =
      .next (s.setOut (.ofStatus (.error .limitOverflow))) := by
  rw [exec, execEncode, h]
  rfl

/-- `DECODE` (R75). -/
theorem exec_decode (d : Descriptor) (s : State) : exec (.decode d) s = .next (s.setOut (decodeResult s.cfg d)) := rfl

/-- `ENCODE` of an accepted limit, with the limit cut by width (R74). -/
theorem exec_encode_eq_pack {s : State} {limit : Word} (h : limit.toNat ≤ 0xFFFFF ∨ s.cfg.limitPolicy = .truncate)
    (base : Word) (access flags : Byte) : exec (.encode base limit access flags) s =
      .next (s.setOut (.encoded (pack base (limit.setWidth 20) access (flagsIn s.cfg.flagsAlign flags)))) := by
  rw [exec_encode_of_accepted (limitRejected_eq_false_iff.2 h), encodeResult, limit20,
    BitVec.setWidth_eq_extractLsb' (by decide)]

/-! ### The round trips -/

/-- What `ENCODE` makes of the four fields `DECODE` gives (R77). -/
theorem encodeResult_unpack (cfg : Config) (d : Descriptor) :
    encodeResult cfg (unpack d).base ((unpack d).lim20.setWidth 32) (unpack d).access
      (flagsOut cfg.flagsAlign (unpack d).fn) = d := by
  rw [encodeResult, limit20_setWidth, flagsIn_flagsOut, pack_unpack]

/-- What `DECODE` makes of the word `ENCODE` gives under the same alignment (R76). -/
theorem decodeResult_encodeResult {cfg cfg' : Config} (h : cfg'.flagsAlign = cfg.flagsAlign) (base limit : Word)
    (access flags : Byte) : decodeResult cfg' (encodeResult cfg base limit access flags) =
      .decoded base ((limit20 limit).setWidth 32) access (flagsOut cfg.flagsAlign (flagsIn cfg.flagsAlign flags)) := by
  rw [decodeResult, encodeResult, unpack_pack, h]

/-- Settles O6: the limit `DECODE` gives is never refused, and each field is placed back where it was read. -/
theorem encodeUndoesDecode : Obligations.EncodeUndoesDecode := by
  refine ⟨fun s d => ⟨_, _, _, _, exec_decode d s, ?_⟩, pack_unpack, unpack_pack⟩
  rw [exec_encode_of_accepted (limitRejected_setWidth _ _), encodeResult_unpack]
  rfl

/-- Settles O7: the fields are read back where they were placed, the limit and the flags as cut on the way in. -/
theorem decodeUndoesEncode : Obligations.DecodeUndoesEncode := by
  intro s s' base limit access flags halign hlim
  refine ⟨_, exec_encode_of_accepted (limitRejected_eq_false_iff.2 hlim) base access flags, ?_⟩
  have hlimit : (limit20 limit).setWidth 32 = if limit.toNat ≤ 0xFFFFF then limit else limit &&& 0x000FFFFF#32 := by
    split
    case isTrue hle => exact setWidth_limit20_of_le hle
    case isFalse => exact setWidth_limit20 limit
  rw [exec_decode, decodeResult_encodeResult halign, hlimit]
  cases s.cfg.flagsAlign with
  | low => rw [flagsOut_flagsIn_low]; rfl
  | high => rw [flagsOut_flagsIn_high]; rfl

/-! ### What a pure command depends on -/

/-- Settles O21: the refusal reads `LIMIT_POLICY` alone, the two results `FLAGS_ALIGN` alone. -/
theorem pureResultsDependOnOperandsOnly : Obligations.PureResultsDependOnOperandsOnly := by
  intro i s s' hpure hpolicy halign
  cases i with
  | encode base limit access flags =>
    have hlimit : limitRejected s'.cfg limit = limitRejected s.cfg limit := by
      rw [limitRejected, limitRejected, hpolicy]
    have hdesc : encodeResult s'.cfg base limit access flags = encodeResult s.cfg base limit access flags := by
      rw [encodeResult, encodeResult, halign]
    cases hr : limitRejected s.cfg limit with
    | true => exact ⟨_, exec_encode_of_rejected hr .., exec_encode_of_rejected (hlimit.trans hr) ..⟩
    | false => exact ⟨_, exec_encode_of_accepted hr .., hdesc ▸ exec_encode_of_accepted (hlimit.trans hr) ..⟩
  | decode d =>
    have hout : decodeResult s'.cfg d = decodeResult s.cfg d := by rw [decodeResult, decodeResult, halign]
    exact ⟨_, exec_decode d s, hout ▸ exec_decode d s'⟩
  | selector => exact ⟨_, rfl, rfl⟩
  | tableLoad | installTss | trLoad | init => cases hpure

end Sys2Proof.Machine

/-! The results of the two commands as the rules print them (O18, O19), in a namespace of their own: `encodeResult` and
`decodeResult` are functions of the model too. -/

namespace Sys2Proof.Machine.Encoder

open Sys2Proof

/-- Settles O18: the limit decides between the two results; the worked examples are the accepted one. -/
theorem encodeResult : Obligations.EncodeResult := by
  refine ⟨fun s base limit access flags => ⟨fun h => exec_encode_eq_pack h base access flags, fun hlt hpolicy =>
    exec_encode_of_rejected (limitRejected_eq_true_iff.2 ⟨hlt, hpolicy⟩) base access flags⟩, ?low, ?high⟩
  all_goals
    intro s halign
    rw [exec_encode_eq_pack (.inl (by decide)), halign]
    rfl

/-- Settles O19: the fields of `unpack` on the result ports. -/
theorem decodeResult : Obligations.DecodeResult := by
  refine ⟨fun s d => ?fields, fun s => ?printed⟩
  case fields =>
    rw [exec_decode, Machine.decodeResult, unpack_eq]
    rfl
  case printed =>
    have hfields : unpack 0x0000E91234560067 = ⟨0x00123456, 0x00067, 0xE9, 0x0⟩ := by decide
    have hflags (al : FlagsAlign) : flagsOut al 0x0 = 0x00 := by cases al <;> rfl
    rw [exec_decode, Machine.decodeResult, hfields, hflags]
    rfl

end Sys2Proof.Machine.Encoder

/-! The table the builder gives: its named entries and the zeros between them (O8), the flat segments (O9). -/

namespace Sys2Proof.Machine

open Sys2Proof

/-! ### The entries of the table -/

/-- Inside the table, an entry of the list is `tableEntry` (R81). -/
theorem buildTable_getElem? {cfg : Config} {i : Nat} (hi : i < cfg.gdtEntries) :
    (buildTable cfg)[i]? = some (tableEntry cfg i) := by
  have hlen : i < (buildTable cfg).length := by rwa [length_buildTable]
  rw [List.getElem?_eq_getElem hlen, buildTable_getElem]

/-- An index the configuration gives to no code or data entry holds 0 (R82, R87). -/
theorem tableEntry_of_unnamed {cfg : Config} {i : Nat} (hkc : i ≠ cfg.idxKcode) (hkd : i ≠ cfg.idxKdata)
    (huc : i ≠ cfg.idxUcode) (hud : i ≠ cfg.idxUdata) : tableEntry cfg i = 0 := by
  rw [tableEntry, if_neg hkc, if_neg hkd, if_neg huc, if_neg hud, ite_self]

/-- As no two indices are equal, each of the four is given its own segment (R83 to R86). -/
theorem tableEntry_named {cfg : Config} (h : cfg.indicesDistinct) :
    tableEntry cfg cfg.idxKcode = flatDescriptor kernelCodeAccess ∧
    tableEntry cfg cfg.idxKdata = flatDescriptor kernelDataAccess ∧
    tableEntry cfg cfg.idxUcode = flatDescriptor userCodeAccess ∧
    tableEntry cfg cfg.idxUdata = flatDescriptor userDataAccess := by
  simp only [Config.indicesDistinct, List.pairwise_cons, List.forall_mem_cons] at h
  obtain ⟨⟨hkc, hkd, huc, hud, -⟩, ⟨hkckd, hkcuc, hkcud, -⟩, ⟨hkduc, hkdud, -⟩, ⟨hucud, -⟩, -⟩ := h
  refine ⟨?_, ?_, ?_, ?_⟩
  · rw [tableEntry, if_neg hkc.symm, if_pos rfl]
  · rw [tableEntry, if_neg hkd.symm, if_neg hkckd.symm, if_pos rfl]
  · rw [tableEntry, if_neg huc.symm, if_neg hkcuc.symm, if_neg hkduc.symm, if_pos rfl]
  · rw [tableEntry, if_neg hud.symm, if_neg hkcud.symm, if_neg hkdud.symm, if_neg hucud.symm, if_pos rfl]

/-- Each of the four indices is inside the table (R6). -/
theorem namedIndices_lt {cfg : Config} (h : cfg.indicesInRange) :
    cfg.idxKcode < cfg.gdtEntries ∧ cfg.idxKdata < cfg.gdtEntries ∧ cfg.idxUcode < cfg.gdtEntries ∧
    cfg.idxUdata < cfg.gdtEntries := by
  simp only [Config.indicesInRange, List.forall_mem_cons] at h
  obtain ⟨-, hkc, hkd, huc, hud, -⟩ := h
  exact ⟨hkc, hkd, huc, hud⟩

/-- The four flat segments stand in the table at the indices the configuration names (R83 to R86). -/
theorem buildTable_named {cfg : Config} (h : cfg.wf) :
    (buildTable cfg)[cfg.idxKcode]? = some (flatDescriptor kernelCodeAccess) ∧
    (buildTable cfg)[cfg.idxKdata]? = some (flatDescriptor kernelDataAccess) ∧
    (buildTable cfg)[cfg.idxUcode]? = some (flatDescriptor userCodeAccess) ∧
    (buildTable cfg)[cfg.idxUdata]? = some (flatDescriptor userDataAccess) := by
  obtain ⟨hdistinct, hrange, -⟩ := h
  obtain ⟨hkc, hkd, huc, hud⟩ := namedIndices_lt hrange
  obtain ⟨ekc, ekd, euc, eud⟩ := tableEntry_named hdistinct
  rw [buildTable_getElem? hkc, buildTable_getElem? hkd, buildTable_getElem? huc, buildTable_getElem? hud,
    ekc, ekd, euc, eud]
  exact ⟨rfl, rfl, rfl, rfl⟩

/-- Settles O8: each entry is that of its index; access bytes, flags and words compute to the values printed. -/
theorem builderEntries : Obligations.BuilderEntries := by
  refine ⟨fun cfg => ⟨length_buildTable cfg, fun hpos => ?null⟩, fun cfg h => ?entries, by decide⟩
  case null => rw [buildTable_getElem? hpos, tableEntry_zero]
  case entries =>
    obtain ⟨hkc, hkd, huc, hud⟩ := buildTable_named h
    refine ⟨hkc, hkd, huc, hud, fun i hi nkc nkd nuc nud => ?_⟩
    rw [buildTable_getElem? hi, tableEntry_of_unnamed nkc nkd nuc nud]

/-! ### The flat segments -/

/-- A flat segment spans the whole 4 GiB (R78, R88). -/
theorem span_flatDescriptor (access : Byte) : span (flatDescriptor access) = (0, 2 ^ 32 - 1) :=
  spanIsLimitScaledByGranularity.1 0 0xFFFFF access flatFlags

/-- The access byte is byte 5 of a flat segment, and the other seven are fixed (R70, R88). -/
theorem bytesLE_flatDescriptor (access : Byte) :
    bytesLE 8 (flatDescriptor access).toNat = [0xFF, 0xFF, 0, 0, 0, access, 0xCF, 0] :=
  (packPlacesEachSubField.1 0 0xFFFFF access flatFlags).2

/-- Settles O9: all four entries are flat segments, whatever their access bytes. -/
theorem flatSegmentsSpanTheSpace : Obligations.FlatSegmentsSpanTheSpace := by
  intro cfg h
  obtain ⟨hkc, hkd, huc, hud⟩ := buildTable_named h
  have hflat : ∀ i ∈ [cfg.idxKcode, cfg.idxKdata, cfg.idxUcode, cfg.idxUdata],
      ∃ access, (buildTable cfg)[i]? = some (flatDescriptor access) := by
    simp only [List.forall_mem_cons, List.not_mem_nil, false_imp_iff, implies_true, and_true]
    exact ⟨⟨_, hkc⟩, ⟨_, hkd⟩, ⟨_, huc⟩, ⟨_, hud⟩⟩
  intro i hi
  obtain ⟨access, hentry⟩ := hflat i hi
  exact ⟨_, access, hentry, span_flatDescriptor access, bytesLE_flatDescriptor access⟩

end Sys2Proof.Machine

/-! The selector (O20). -/

namespace Sys2Proof.Machine

open Sys2Proof

/-- A selector is the index above the level, which has three bits (R57, R89). -/
theorem selectorOf_eq_append (index : BitVec 13) (rpl : BitVec 2) : selectorOf index rpl = index ++ rpl.setWidth 3 := by
  calc selectorOf index rpl
      = index.setWidth 16 <<< 3 ||| (rpl.setWidth 3).setWidth 16 := by
        rw [BitVec.setWidth_setWidth (by decide)]; rfl
    _ = (index ++ rpl.setWidth 3).setWidth 16 := BitVec.setWidth_append_eq_shiftLeft_setWidth_or.symm
    _ = index ++ rpl.setWidth 3 := BitVec.setWidth_eq _

/-- A selector is `index * 8 + rpl`: the level stays below the index (R89). -/
theorem toNat_selectorOf (index : BitVec 13) (rpl : BitVec 2) :
    (selectorOf index rpl).toNat = index.toNat * 8 + rpl.toNat := by
  have hlt : rpl.toNat < 2 ^ 3 := by omega
  rw [selectorOf_eq_append, BitVec.toNat_append, BitVec.toNat_setWidth_of_le (by decide),
    ← Nat.shiftLeft_add_eq_or_of_lt hlt, Nat.shiftLeft_eq]

/-- Bit 2 of a selector, the table indicator, is zero (R57, R89). -/
theorem getLsbD_two_selectorOf (index : BitVec 13) (rpl : BitVec 2) : (selectorOf index rpl).getLsbD 2 = false := by
  have hlow : (rpl.setWidth 3).getLsbD 2 = false := by
    rw [BitVec.getLsbD_setWidth, BitVec.getLsbD_of_ge rpl 2 (by decide), Bool.and_false]
  rw [selectorOf_eq_append, BitVec.getLsbD_append, if_pos (by decide), hlow]

/-- A selector holds its level in bits 1:0 (R57, R89). -/
theorem selectorLevel_selectorOf (index : BitVec 13) (rpl : BitVec 2) :
    (selectorOf index rpl).extractLsb' 0 2 = rpl := by
  rw [selectorOf_eq_append, extractLsb'_append_low _ _ (by decide), BitVec.extractLsb'_setWidth_of_le (by decide),
    extractLsb'_whole]

/-- `SELECTOR` (R89). -/
theorem exec_selector (index : BitVec 13) (rpl : BitVec 2) (s : State) :
    exec (.selector index rpl) s = .next (s.setOut (.selected (selectorOf index rpl))) := rfl

/-- Settles O20: the number and the three fields of a selector; the two examples worked out. -/
theorem selectorResult : Obligations.SelectorResult :=
  ⟨fun s index rpl => ⟨_, exec_selector index rpl s, rfl, toNat_selectorOf index rpl,
    selectorIndex_selectorOf index rpl, getLsbD_two_selectorOf index rpl, selectorLevel_selectorOf index rpl⟩,
    fun s => ⟨exec_selector 1 0 s, exec_selector 2 3 s⟩⟩

end Sys2Proof.Machine

/-! The TSS Installer: `INSTALL_TSS`, its effect, repetition, installed entry and frame (O23, O27, O28, O46). -/

namespace Sys2Proof.Machine

open Sys2Proof

/-! ### The checks of an install (R94) -/

/-- A size of 1 or more less one does not wrap: the limit of a TSS descriptor as a number (R92). -/
theorem toNat_sub_one {n : Word} (hn : n ≠ 0) : (n - 1).toNat = n.toNat - 1 := by
  have hle : (1 : Word) ≤ n := by bv_omega
  exact BitVec.toNat_sub_of_le hle

/-- An install is refused in the phases before a table load and after the task-register load (R94, R112). -/
theorem admitsInstall_eq_false_iff {p : Phase} :
    admitsInstall p = false ↔ p ≠ .tableLoaded ∧ p ≠ .tssInstalled := by
  cases p <;> decide

/-- The installer refuses the null index and any index outside the table (R94). -/
theorem indexRefused_eq_true_iff {cfg : Config} {i : Nat} :
    indexRefused cfg i = true ↔ i = 0 ∨ cfg.gdtEntries ≤ i := by
  rw [indexRefused, Bool.or_eq_true, decide_eq_true_iff, decide_eq_true_iff]

/-- The size checks of the machine are those of rule R94. -/
theorem sizeError_toNat (cfg : Config) (n : Word) :
    sizeError cfg n.toNat =
      if n = 0 then some .badTssSize else if limitRejected cfg (n - 1) then some .limitOverflow else none := by
  have hzero : n.toNat = 0 ↔ n = 0 := by rw [← BitVec.toNat_inj]; rfl
  by_cases hn : n = 0
  · rw [sizeError, if_pos (hzero.2 hn), if_pos hn]
  · simp only [sizeError, if_neg (mt hzero.1 hn), if_neg hn, limitRejected_eq_true_iff, toNat_sub_one hn]

/-- The checks of the machine are those of rule R94, in the rule's order. -/
theorem installError_toNat (s : State) (i : Nat) (a n : Word) :
    installError s i n.toNat =
      if !admitsInstall s.phase then some .orderViolation
      else if indexRefused s.cfg i then some .indexOutOfRange
      else if n = 0 then some .badTssSize
      else if limitRejected s.cfg (tssFields a n).limit then some .limitOverflow
      else none := by
  have hphase : (s.phase ≠ .tableLoaded ∧ s.phase ≠ .tssInstalled) ↔ (!admitsInstall s.phase) = true := by
    rw [Bool.not_eq_true', admitsInstall_eq_false_iff]
  exact if_congr hphase rfl (if_congr indexRefused_eq_true_iff.symm rfl (sizeError_toNat s.cfg n))

/-- A list of checks finds no error when its first does not fail and the rest find none. -/
theorem ite_some_eq_none_iff {c : Prop} [Decidable c] {e : ConfigError} {rest : Option ConfigError} :
    (if c then some e else rest) = none ↔ ¬c ∧ rest = none := by
  split <;> simp [*]

/-- When no check of rule R94 fails. -/
theorem installError_eq_none_iff {s : State} {i : Nat} {n : Word} :
    installError s i n.toNat = none ↔
      admitsInstall s.phase = true ∧ 0 < i ∧ i < s.cfg.gdtEntries ∧ n ≠ 0 ∧ limitRejected s.cfg (n - 1) = false := by
  rw [installError_toNat s i 0 n]
  simp only [ite_some_eq_none_iff]
  simp only [indexRefused_eq_true_iff, Bool.not_eq_true', Bool.not_eq_false, Bool.not_eq_true, not_or, not_le,
    Nat.pos_iff_ne_zero, and_assoc, and_true, ne_eq, tssFields]

/-- After the task-register load no install is admitted (R94, R112). -/
theorem installError_of_taskRegisterLoaded {s : State} (hp : s.phase = .taskRegisterLoaded) (i n : Nat) :
    installError s i n = some .orderViolation := by
  rw [installError, hp]
  exact if_pos (by decide)

/-! ### The three ends of an install (R94) -/

/-- An install on a faulted unit (R124). -/
theorem installTssOp_of_fault {s : State} (hf : s.fault = true) (i : Nat) (a n : Word) :
    installTssOp i a n s = .next (.halted, s) := by
  rw [installTssOp, hf]
  rfl

/-- An install that fails a check ends with the first that does (R94, R123): rule and machine test the same
conditions in the same order. -/
theorem installTssOp_of_error {s : State} (hf : s.fault = false) {i : Nat} {n : Word} {e : ConfigError}
    (he : installError s i n.toNat = some e) (a : Word) : installTssOp i a n s = .next (.error e, s.takeFault e) := by
  rw [installError_toNat s i a n] at he
  rw [installTssOp, hf, if_neg Bool.false_ne_true]
  split_ifs at he ⊢ <;> cases he <;> rfl

/-- An install that passes its checks completes when its store is in the address space (R94). -/
theorem installTssOp_of_store {s : State} (hf : s.fault = false) {i : Nat} {a n : Word} {m : Memory}
    (he : installError s i n.toNat = none) (hm : storeEntry s.cfg i (tssDescriptor a n) s.mem = some m) :
    installTssOp i a n s = .next (.ok, (s.setMem m).setPhase .tssInstalled) := by
  rw [installError_toNat s i a n] at he
  rw [installTssOp, hf, if_neg Bool.false_ne_true, hm]
  split_ifs at he ⊢
  rfl

/-- The state after an `INSTALL_TSS` that completes, its store leaving memory `m` (R94). -/
def afterInstall (s : State) (m : Memory) : State := ((s.setMem m).setPhase .tssInstalled).setOut (.ofStatus .ok)

/-- `INSTALL_TSS` is the install at its operand, with `status` written (R94). -/
theorem exec_installTss (k : BitVec 13) (a n : Word) (s : State) :
    exec (.installTss k a n) s = complete (installTssOp k.toNat a n s) := rfl

/-- `INSTALL_TSS` that fails a check (R94, R123). -/
theorem exec_installTss_of_error {s : State} (hf : s.fault = false) {k : BitVec 13} {n : Word} {e : ConfigError}
    (he : installError s k.toNat n.toNat = some e) (a : Word) :
    exec (.installTss k a n) s = .next ((s.takeFault e).setOut (.ofStatus (.error e))) := by
  rw [exec_installTss, installTssOp_of_error hf he, complete_ok]

/-- `INSTALL_TSS` that passes its checks, its store in the address space (R94). -/
theorem exec_installTss_of_store {s : State} (hf : s.fault = false) {k : BitVec 13} {a n : Word} {m : Memory}
    (he : installError s k.toNat n.toNat = none)
    (hm : storeEntry s.cfg k.toNat (tssDescriptor a n) s.mem = some m) :
    exec (.installTss k a n) s = .next (afterInstall s m) := by
  rw [exec_installTss, installTssOp_of_store hf he hm, complete_ok, afterInstall]

/-! ### What an install leaves -/

/-- A store of one entry patches the table the harness reads (R93). -/
theorem State.table_setMem_storeEntry {s : State} {i : Nat} {v : Descriptor} {m : Memory}
    (h : storeEntry s.cfg i v s.mem = some m) : (s.setMem m).table = patch s.table i v := by
  obtain ⟨hentry, -, hother, -⟩ := storeEntry_spec h
  refine List.ext_getElem (by simp [State.table, patch]) fun j hj hj' => ?_
  by_cases hji : j = i
  · subst hji
    simp [State.table, patch, State.entry, hentry]
  · simp [State.table, patch, State.entry, hother j hji, List.getElem_set_ne (Ne.symm hji)]

/-- Settles O23: the ends of an install one by one; the store is inside the table, so it succeeds. -/
theorem installTssEffect : Obligations.InstallTssEffect := by
  intro s k a n hc
  refine ⟨fun hf => ?halted, fun hf e he => exec_installTss_of_error hf he a, fun hf he => ?completes⟩
  case halted =>
    rw [exec_installTss, installTssOp_of_fault hf]
    rfl
  case completes =>
    obtain ⟨-, -, hlt, hn, -⟩ := installError_eq_none_iff.1 he
    obtain ⟨m, hm⟩ := storeEntry_ok hc hlt (tssDescriptor a n) s.mem
    obtain ⟨hentry, hother, -⟩ := storeEntry_spec hm
    rw [← tssDescriptor_eq_pack a hn]
    exact ⟨m, exec_installTss_of_store hf he hm, hentry, State.table_setMem_storeEntry hm, hother⟩

/-- Settles O27: the word stored again is the one already there; the second install is one more from `TSSInstalled`;
after `TR_LOAD` the phase admits none. -/
theorem installTssIsIdempotent : Obligations.InstallTssIsIdempotent := by
  intro s t k a n hwf h hok
  obtain ⟨-, rfl⟩ | ⟨-, c, rfl⟩ | ⟨hf, -, hpos, hlt, hn, hlimit, m, hm, rfl⟩ := execInstallTss_next h
  · cases hok
  · cases hok
  refine ⟨?same, fun hc k' a' n' hk' hlt' hn' hlimit' => ?other, fun u hu k' a' n' => ?refused⟩
  case same =>
    have hagain : storeEntry s.cfg k.toNat (tssDescriptor a n) m = some m :=
      (repeatedWriteChangesNothing s.mem _ _ hwf).2 m hm
    have he : installError (afterInstall s m) k.toNat n.toNat = none :=
      installError_eq_none_iff.2 ⟨rfl, hpos, hlt, hn, hlimit⟩
    exact exec_installTss_of_store (s := afterInstall s m) hf he hagain
  case other =>
    have hpos' : 0 < k'.toNat := by bv_omega
    have hsize : (n' - 1).toNat ≤ 0xFFFFF ∨ s.cfg.limitPolicy = .truncate := by
      rw [toNat_sub_one hn']
      exact hlimit'.imp_left (by omega)
    have he : installError (afterInstall s m) k'.toNat n'.toNat = none :=
      installError_eq_none_iff.2 ⟨rfl, hpos', hlt', hn', limitRejected_eq_false_iff.2 hsize⟩
    obtain ⟨m', hexec, hentry, -⟩ := (installTssEffect (afterInstall s m) k' a' n' hc).2.2 hf he
    exact ⟨_, hexec, rfl, rfl, hentry⟩
  case refused =>
    obtain ⟨hf', -⟩ | ⟨-, hphase, -⟩ | ⟨-, -, hu'⟩ := execTrLoad_next hu
    · exact absurd (hf.symm.trans hf') (by decide)
    · exact absurd rfl hphase
    · have hfu : u.fault = false := hu' ▸ hf
      have hpu : u.phase = .taskRegisterLoaded := hu' ▸ rfl
      exact exec_installTss_of_error hfu (installError_of_taskRegisterLoaded hpu k'.toNat n'.toNat) a'

/-- Settles O46: only a completing install stores, and it stores one entry. -/
theorem frameOfInstallTss : Obligations.FrameOfInstallTss := by
  intro k a n s t h
  obtain ⟨-, rfl⟩ | ⟨-, c, rfl⟩ | ⟨-, -, -, -, -, -, m, hm, rfl⟩ := execInstallTss_next h
  · exact ⟨fun _ _ _ _ => rfl, rfl, rfl, rfl, rfl, fun _ => ⟨rfl, rfl⟩, fun _ => ⟨rfl, fun _ => rfl⟩⟩
  · exact ⟨fun _ _ _ _ => rfl, rfl, rfl, rfl, rfl, fun hok => (by cases hok), fun _ => ⟨rfl, fun _ => rfl⟩⟩
  · obtain ⟨-, hother, -⟩ := storeEntry_spec hm
    refine ⟨?_, rfl, rfl, rfl, rfl, fun _ => ⟨rfl, rfl⟩, fun hne => absurd rfl hne⟩
    rintro ea rfl x hx
    exact hother x hx

/-! ### From the builder's table to the installed entry (R98) -/

/-- `TABLE_LOAD` with no table loaded, its stores in the address space (R106). -/
theorem exec_tableLoad_of_store {s : State} (hf : s.fault = false) (hp : s.phase = .unloaded) {m : Memory}
    (hm : storeEntries s.cfg 0 (buildTable s.cfg) s.mem = some m) :
    exec .tableLoad s = .next ((afterTableLoad s m).setOut (.ofStatus .ok)) := by
  have hop : tableLoadOp s = .next (.ok, afterTableLoad s m) := by simp [tableLoadOp, succeed, hf, hp, hm]
  rw [exec, execTableLoad, hop, complete_ok]

/-- The index of the TSS entry is not the null one, and is inside the table (R6). -/
theorem idxTss_pos_and_lt {cfg : Config} (h : cfg.wf) : 0 < cfg.idxTss ∧ cfg.idxTss < cfg.gdtEntries := by
  obtain ⟨hdistinct, hrange, -⟩ := h
  have hne : idxNull ≠ cfg.idxTss := List.rel_of_pairwise_cons hdistinct (by simp)
  exact ⟨Nat.pos_of_ne_zero hne.symm, hrange cfg.idxTss (by simp)⟩

/-- The index of the TSS entry fits the 13 bits of the operand (R6). -/
theorem toNat_ofNat_idxTss {cfg : Config} (h : cfg.wf) : (BitVec.ofNat 13 cfg.idxTss).toNat = cfg.idxTss := by
  obtain ⟨-, hlt⟩ := idxTss_pos_and_lt h
  obtain ⟨-, -, hfit, -⟩ := h
  rw [BitVec.toNat_ofNat, Nat.mod_eq_of_lt (by omega)]

/-- What `DECODE` makes of a TSS descriptor whose limit has 20 bits (R92, R98). -/
theorem decodeResult_tssDescriptor (cfg : Config) (a : Word) {n : Word} (hle : (n - 1).toNat ≤ 0xFFFFF) :
    decodeResult cfg (tssDescriptor a n) = .decoded a (n - 1) 0xE9 0x00 := by
  have haccess : tssAccess = 0xE9 := by decide
  have hflags : flagsOut cfg.flagsAlign tssFlags = 0x00 := by cases cfg.flagsAlign <;> decide
  simp only [decodeResult, tssDescriptor, tssFields, unpack_pack, setWidth_limit20_of_le hle, haccess, hflags]

/-- Settles O28: the install patches the entry of the TSS in the table the builder stored. -/
theorem installedEntryDecodesToTheTss : Obligations.InstalledEntryDecodesToTheTss := by
  intro s a n hc hf hp hmin hmax
  obtain ⟨hpos, hlt⟩ := idxTss_pos_and_lt hc
  have hn : n ≠ 0 := by bv_omega
  have hlimit : (n - 1).toNat ≤ 0xFFFFF := by rw [toNat_sub_one hn]; omega
  obtain ⟨m, hm⟩ := storeTable_ok hc s.mem
  obtain ⟨m', hm'⟩ := storeEntry_ok hc hlt (tssDescriptor a n) m
  obtain ⟨hbuilt, -⟩ := storeTable_spec hm
  obtain ⟨hentry, -, hother, -⟩ := storeEntry_spec hm'
  have he : installError ((afterTableLoad s m).setOut (.ofStatus .ok)) s.cfg.idxTss n.toNat = none :=
    installError_eq_none_iff.2 ⟨rfl, hpos, hlt, hn, limitRejected_eq_false_iff.2 (.inl hlimit)⟩
  rw [← toNat_ofNat_idxTss hc] at he hm'
  refine ⟨_, _, tssDescriptor a n, exec_tableLoad_of_store hf hp hm,
    exec_installTss_of_store (s := (afterTableLoad s m).setOut (.ofStatus .ok)) hf he hm', hentry,
    ?decoded, fun i hi hne => ?builder⟩
  case decoded =>
    rw [exec_decode, decodeResult_tssDescriptor _ a hlimit]
    rfl
  case builder => rw [buildTable_getElem? hi]; exact (hother i hne).trans (hbuilt i hi)

end Sys2Proof.Machine

/-! SUPPORT. The bytes of a concatenation, and a property of a run. -/

namespace Sys2Proof

/-- The bytes of a concatenation are those of its low part, then those of its high part (R35). -/
theorem bytesLE_toNat_append {h l : Nat} (hi : BitVec (8 * h)) (lo : BitVec (8 * l)) :
    bytesLE (l + h) (hi ++ lo).toNat = bytesLE l lo.toNat ++ bytesLE h hi.toNat := by
  refine List.ext_getElem (by simp) fun k hk hk' => ?_
  rw [bytesLE_toNat_getElem]
  by_cases hlow : k < l
  · rw [List.getElem_append_left (by simpa using hlow), bytesLE_toNat_getElem, extractLsb'_append_low _ _ (by omega)]
  · rw [List.getElem_append_right (by simpa using hlow), bytesLE_toNat_getElem,
      extractLsb'_append_high _ _ (by omega), length_bytesLE, Nat.mul_sub]

end Sys2Proof

namespace Sys2Proof.Machine

open Sys2Proof

/-- A property every step keeps is kept by every run. -/
theorem run_keeps {P : State → Prop} (keep : ∀ u v, step u = .next v → P u → P v) {k : Nat} {s t : State}
    (h : Sys2Proof.core.run k s = .next t) (hs : P s) : P t := by
  induction k generalizing s with
  | zero => cases h; exact hs
  | succ k ih =>
    obtain ⟨u, hstep, hrun⟩ := core_run_succ.1 h
    exact ih hrun (keep s u hstep hs)

end Sys2Proof.Machine

/-! The descriptor pointer and the TSS selector (O10, O11). -/

namespace Sys2Proof.Machine

open Sys2Proof

/-! ### The pointer (R56, R100) -/

/-- A pointer is the address above the size (R56). -/
theorem pointerOf_eq_append (size : BitVec 16) (address : Word) : pointerOf size address = address ++ size := by
  calc pointerOf size address
      = address.setWidth 48 <<< 16 ||| size.setWidth 48 := by
        rw [pointerOf, BitVec.or_comm, Layout.pointerSizePos_eq, BitVec.shiftLeft_zero]
    _ = (address ++ size).setWidth 48 := BitVec.setWidth_append_eq_shiftLeft_setWidth_or.symm
    _ = address ++ size := BitVec.setWidth_eq _

/-- A pointer holds its size in bits 15:0 (R18, R56). -/
theorem pointerSize_pointerOf (size : BitVec 16) (address : Word) : pointerSize (pointerOf size address) = size := by
  rw [pointerSize, pointerOf_eq_append, extractLsb'_append_low _ _ (by decide), extractLsb'_whole]

/-- The six bytes of a pointer are those of its size, then those of its address (R56). -/
theorem pointerBytes_pointerOf (size : BitVec 16) (address : Word) :
    pointerBytes (pointerOf size address) = bytesLE 2 size.toNat ++ bytesLE 4 address.toNat := by
  rw [pointerBytes, pointerOf_eq_append]
  exact bytesLE_toNat_append (l := 2) (h := 4) address size

/-- The length of a legal table in bytes, less one, fits the 16 bits of the pointer's size (R6, R100). -/
theorem toNat_ofNat_tableSize {cfg : Config} (h : cfg.wf) :
    (BitVec.ofNat 16 (8 * cfg.gdtEntries - 1)).toNat = 8 * cfg.gdtEntries - 1 := by
  obtain ⟨-, -, hfit, -⟩ := h
  rw [BitVec.toNat_ofNat, Nat.mod_eq_of_lt (by omega)]

/-- Settles O10: the pointer is a concatenation, and a table of 8192 entries or fewer has a length that fits it. -/
theorem pointerHoldsSizeAndAddress : Obligations.PointerHoldsSizeAndAddress := by
  refine ⟨fun cfg hc => ⟨pointerOf_eq_append _ _, ?size, pointerAddress_makePointer cfg, ?bytes⟩, by decide⟩
  case size => rw [makePointer, pointerSize_pointerOf, toNat_ofNat_tableSize hc]
  case bytes => rw [makePointer, pointerBytes_pointerOf, toNat_ofNat_tableSize hc]

/-! ### The TSS selector (R102) -/

/-- The TSS selector is eight times `IDX_TSS` (R102). -/
theorem toNat_tssSelector {cfg : Config} (h : cfg.wf) : (tssSelector cfg).toNat = cfg.idxTss * 8 := by
  rw [tssSelector, toNat_selectorOf, toNat_ofNat_idxTss h]
  rfl

/-- Settles O11: the TSS selector is a selector of level 0, which adds nothing to the index. -/
theorem tssSelectorHasRingZero : Obligations.TssSelectorHasRingZero := by
  refine ⟨fun cfg hc => ⟨toNat_tssSelector hc, selectorLevel_selectorOf _ 0, exec_selector _ 0⟩, fun cfg hfive => ?_⟩
  rw [tssSelector, hfive]
  rfl

end Sys2Proof.Machine

/-! The Load Boundary's commands: their ends (O22, O24), and the frame of `TABLE_LOAD` and `INIT` (O47). -/

namespace Sys2Proof.Machine

open Sys2Proof

/-! ### The ends of `TABLE_LOAD` (R106) -/

/-- `TABLE_LOAD` on a faulted unit (R124). -/
theorem exec_tableLoad_of_fault {s : State} (hf : s.fault = true) :
    exec .tableLoad s = .next (s.setOut (.ofStatus .halted)) := by
  have hop : tableLoadOp s = refuseHalted s := by simp [tableLoadOp, hf]
  rw [exec, execTableLoad, hop, refuseHalted, complete_ok]

/-- `TABLE_LOAD` outside `Unloaded` (R106, R123). -/
theorem exec_tableLoad_of_phase_ne {s : State} (hf : s.fault = false) (hp : s.phase ≠ .unloaded) :
    exec .tableLoad s = .next ((s.takeFault .orderViolation).setOut (.ofStatus (.error .orderViolation))) := by
  have hop : tableLoadOp s = raiseConfigError .orderViolation s := by simp [tableLoadOp, hf, hp]
  rw [exec, execTableLoad, hop, raiseConfigError, complete_ok]

/-- Settles O22: the table fits the address space, so its stores succeed; what they leave is `storeTable_spec`. -/
theorem tableLoadEffect : Obligations.TableLoadEffect := by
  intro s hc
  refine ⟨exec_tableLoad_of_fault, exec_tableLoad_of_phase_ne, fun hf hp => ?_⟩
  obtain ⟨m, hm⟩ := storeTable_ok hc s.mem
  obtain ⟨hbuilt, hother, -⟩ := storeTable_spec hm
  exact ⟨m, exec_tableLoad_of_store hf hp hm, fun i hi => (hbuilt i hi).trans (buildTable_getElem? hi).symm, hother⟩

/-! ### The ends of `TR_LOAD` (R107) -/

/-- `TR_LOAD` on a faulted unit (R124). -/
theorem exec_trLoad_of_fault {s : State} (hf : s.fault = true) :
    exec .trLoad s = .next (s.setOut (.ofStatus .halted)) := by
  have hop : trLoadOp s = refuseHalted s := by simp [trLoadOp, hf]
  rw [exec, execTrLoad, hop, refuseHalted, complete_ok]

/-- `TR_LOAD` outside `TSSInstalled` (R107, R123). -/
theorem exec_trLoad_of_phase_ne {s : State} (hf : s.fault = false) (hp : s.phase ≠ .tssInstalled) :
    exec .trLoad s = .next ((s.takeFault .orderViolation).setOut (.ofStatus (.error .orderViolation))) := by
  have hop : trLoadOp s = raiseConfigError .orderViolation s := by simp [trLoadOp, hf, hp]
  rw [exec, execTrLoad, hop, raiseConfigError, complete_ok]

/-- `TR_LOAD` in `TSSInstalled`, which completes (R107). -/
theorem exec_trLoad_of_tssInstalled {s : State} (hf : s.fault = false) (hp : s.phase = .tssInstalled) :
    exec .trLoad s =
      .next (((s.emit (.loadTaskRegister (tssSelector s.cfg))).setPhase .taskRegisterLoaded).setOut
        (.ofStatus .ok)) := by
  have hop : trLoadOp s = succeed ((s.emit (.loadTaskRegister (tssSelector s.cfg))).setPhase .taskRegisterLoaded) := by
    simp [trLoadOp, hf, hp]
  rw [exec, execTrLoad, hop, succeed, complete_ok]

/-- A selector of level 0 is the index shifted past the level and the table indicator (R89). -/
theorem selectorOf_level_zero (index : BitVec 13) : selectorOf index 0 = BitVec.ofNat 16 index.toNat <<< 3 := by
  rw [selectorOf, BitVec.ofNat_toNat]
  exact BitVec.or_zero

/-- Settles O24: the ends of `TR_LOAD` one by one; its selector is one of level 0. -/
theorem trLoadEffect : Obligations.TrLoadEffect := by
  intro s
  rw [← selectorOf_level_zero]
  exact ⟨exec_trLoad_of_fault, exec_trLoad_of_phase_ne, exec_trLoad_of_tssInstalled⟩

/-! ### The frame of `TABLE_LOAD` and `INIT` (R38, R47) -/

/-- No command changes the configuration (R63). -/
theorem exec_cfg_eq {i : Instr} {s t : State} (h : exec i s = .next t) : t.cfg = s.cfg :=
  (exec_moves h).keep (P := fun u => u.cfg = s.cfg) (fun _ _ hm hu => hm.cfg_eq.trans hu) rfl

/-- No command changes a byte outside the table (R33, R47). -/
theorem exec_read_outside_table {i : Instr} {s t : State} (h : exec i s = .next t) {x : Nat}
    (hx : ¬ inTable s.cfg x) : t.mem.read x = s.mem.read x := by
  refine ((exec_moves h).keep (P := fun u => u.cfg = s.cfg ∧ u.mem.read x = s.mem.read x) ?_ ⟨rfl, rfl⟩).2
  rintro u v hm ⟨hcfg, hread⟩
  exact ⟨hm.cfg_eq.trans hcfg, (hm.read_outside_table (hcfg ▸ hx)).trans hread⟩

/-- A byte of no entry is no byte of the table (R21, R47). -/
theorem not_inTable_of_outside_entries {cfg : Config} {x : Nat}
    (h : ∀ j, j < cfg.gdtEntries → x < entryAddress cfg j ∨ entryAddress cfg j + 8 ≤ x) : ¬ inTable cfg x := by
  intro hx
  obtain ⟨j, k, hj, hk, rfl⟩ := hx.exists_entry
  have hout := h j hj
  omega

/-- `TABLE_LOAD` and `INIT`, the two commands that begin with a table load, are sequenced (R64). -/
theorem isSequenced_of_tableLoad_or_init {i : Instr} (hi : i = .tableLoad ∨ ∃ a n, i = .init a n) :
    i.isSequenced = true := by
  obtain rfl | ⟨a, n, rfl⟩ := hi <;> rfl

/-- A sequenced command that ends with `Ok` leaves `FAULT` and `CAUSE` (R16, R17). -/
theorem fault_cause_eq_of_ok {i : Instr} {s t : State} (hi : i.isSequenced = true) (h : exec i s = .next t)
    (hok : t.out.status = some .ok) : t.fault = s.fault ∧ t.cause = s.cause := by
  obtain hkept | ⟨-, -, e, -, hstatus⟩ := execSequenced_firstFaultOrKept hi h
  · exact hkept
  · exact absurd (hok.symm.trans hstatus) (by simp)

/-- `TABLE_LOAD` or `INIT` on a faulted unit, or with a table loaded, is turned away (R106, R113). -/
theorem exec_turned_away {i : Instr} {s t : State} (hi : i = .tableLoad ∨ ∃ a n, i = .init a n)
    (h : exec i s = .next t) (haway : s.fault = true ∨ s.phase ≠ .unloaded) :
    t = s.setOut (.ofStatus .halted) ∨
    t = (s.takeFault .orderViolation).setOut (.ofStatus (.error .orderViolation)) := by
  have admitted (hf : s.fault = false) (hp : s.phase = .unloaded) : False := by simp [hf, hp] at haway
  obtain rfl | ⟨a, n, rfl⟩ := hi
  · obtain ⟨-, ht⟩ | ⟨-, -, ht⟩ | ⟨hf, hp, -⟩ := execTableLoad_next h
    · exact .inl ht
    · exact .inr ht
    · exact (admitted hf hp).elim
  · obtain ⟨-, ht⟩ | ⟨-, -, ht⟩ | ⟨hf, hp, -⟩ := execInit_next h
    · exact .inl ht
    · exact .inr ht
    · exact (admitted hf hp).elim

/-- Settles O47: every move stores inside the table; a command turned away takes a fault at most. -/
theorem frameOfTableLoadAndInit : Obligations.FrameOfTableLoadAndInit := by
  intro i s t hi h
  refine ⟨fun x hx => exec_read_outside_table h (not_inTable_of_outside_entries hx), exec_cfg_eq h, exec_input h,
    fault_cause_eq_of_ok (isSequenced_of_tableLoad_or_init hi) h, fun haway => ?_⟩
  obtain rfl | rfl := exec_turned_away hi h haway
  · exact ⟨rfl, rfl, rfl, fun _ => rfl⟩
  · exact ⟨rfl, rfl, rfl, fun _ => rfl⟩

end Sys2Proof.Machine

/-! The way into `TaskRegisterLoaded` (O52), and the trace of a run (O55). -/

namespace Sys2Proof.Machine

open Sys2Proof

/-! ### The phase `TaskRegisterLoaded` is entered after an install (R110) -/

/-- A TSS descriptor is present (R53, R92). -/
theorem accessPresent_tssDescriptor (a n : Word) : accessPresent (unpack (tssDescriptor a n)).access = 1 := by
  simp only [tssDescriptor, tssFields, unpack_pack]
  decide

/-- The command that enters `TaskRegisterLoaded` is a `TR_LOAD` after an install, or an `INIT` that has stored a TSS
descriptor in entry `IDX_TSS` (R107, R113). -/
theorem exec_enters_taskRegisterLoaded {i : Instr} {s t : State} (h : exec i s = .next t)
    (hs : s.phase ≠ .taskRegisterLoaded) (ht : t.phase = .taskRegisterLoaded) :
    s.phase = .tssInstalled ∨
    (s.phase = .unloaded ∧ ∃ a n, t.entry s.cfg.idxTss = some (tssDescriptor a n)) := by
  cases hi : i.isPure with
  | true =>
    obtain ⟨o, rfl⟩ := execPure_next hi h
    exact absurd ht hs
  | false =>
    cases i with
    | encode | decode | selector => cases hi
    | tableLoad =>
      obtain ⟨-, rfl⟩ | ⟨-, -, rfl⟩ | ⟨-, -, m, -, rfl⟩ := execTableLoad_next h
      · exact absurd ht hs
      · exact absurd ht hs
      · cases ht
    | installTss k a n =>
      obtain ⟨-, rfl⟩ | ⟨-, c, rfl⟩ | ⟨-, -, -, -, -, -, m, -, rfl⟩ := execInstallTss_next h
      · exact absurd ht hs
      · exact absurd ht hs
      · cases ht
    | trLoad =>
      obtain ⟨-, rfl⟩ | ⟨-, -, rfl⟩ | ⟨-, hp, -⟩ := execTrLoad_next h
      · exact absurd ht hs
      · exact absurd ht hs
      · exact .inl hp
    | init a n =>
      obtain ⟨-, rfl⟩ | ⟨-, -, rfl⟩ | ⟨-, hp, m, -, ⟨c, -, rfl⟩ | ⟨-, -, -, -, m2, hm2, rfl⟩⟩ := execInit_next h
      · exact absurd ht hs
      · exact absurd ht hs
      · cases ht
      · exact .inr ⟨hp, a, n, (storeEntry_spec hm2).1⟩

/-- Settles O52: only a command enters the phase, and every TSS descriptor is present. -/
theorem taskRegisterLoadNeedsAnInstall : Obligations.TaskRegisterLoadNeedsAnInstall := by
  intro s t _ h hs ht
  obtain ⟨-, rfl⟩ | ⟨p, rest, -, ⟨i, -, he⟩ | ⟨r, -, rfl⟩⟩ := step_next h
  · exact absurd ht hs
  · obtain hp | ⟨hp, a, n, hentry⟩ := exec_enters_taskRegisterLoaded he hs ht
    · exact .inl hp
    · exact .inr ⟨hp, _, hentry, accessPresent_tssDescriptor a n⟩
  · exact absurd ht hs

/-! ### The trace of a run (R19, R108) -/

/-- The trace of every phase is a beginning of the last one's (R108, R117). -/
theorem eventsOf_prefix (cfg : Config) (p : Phase) : eventsOf cfg p <+: eventsOf cfg .taskRegisterLoaded := by
  cases p with
  | unloaded => exact List.nil_prefix
  | tableLoaded | tssInstalled => exact ⟨[.loadTaskRegister (tssSelector cfg)], rfl⟩
  | taskRegisterLoaded => exact List.prefix_rfl

/-- Settles O55: a run keeps the invariant, by which the trace is the one of the phase it ends in. -/
theorem primitivesAreCalledOnceInOrder : Obligations.PrimitivesAreCalledOnceInOrder := by
  intro k s t hs h
  have hev : t.ev = eventsOf s.cfg t.phase := by
    have hinv : Inv t := run_keeps (fun u v hstep hu => invariantIsKeptByEveryStep u v hu hstep) h hs
    rw [hinv.events, run_cfg_eq h]
  exact ⟨hev ▸ eventsOf_prefix s.cfg t.phase, fun hp => by rw [hev, hp]; rfl⟩

end Sys2Proof.Machine

/-! `PHASE` never goes back (O50). -/

namespace Sys2Proof.Machine

open Sys2Proof

/-- No move lowers `PHASE` (R115). -/
theorem Move.phase_code_le {s t : State} (h : Move s t) : s.phase.code.toNat ≤ t.phase.code.toNat := by
  cases h with
  | input | output | fault => exact le_rfl
  | load _ hp _ => rw [hp]; exact Nat.zero_le _
  | install _ hp _ _ _ _ _ =>
    obtain hp | hp : s.phase = .tableLoaded ∨ s.phase = .tssInstalled := by simpa [admitsInstall] using hp
    · rw [hp]; exact Nat.le_succ 1
    · rw [hp]; exact le_rfl
  | trLoad _ hp => rw [hp]; exact Nat.le_succ 2

/-- Settles O50: no move of a step lowers the phase, and reset writes `Unloaded`. -/
theorem phaseNeverGoesBack : Obligations.PhaseNeverGoesBack := by
  refine ⟨fun s t h => ?_, fun s p => applyReset_phase p s⟩
  exact step_keeps (P := fun u => s.phase.code.toNat ≤ u.phase.code.toNat)
    (fun _ _ hm hu => hu.trans hm.phase_code_le) h le_rfl

end Sys2Proof.Machine

/-! `INIT`: its four ends (O25), and its equality with the three commands (O56). -/

namespace Sys2Proof.Machine

open Sys2Proof

/-! ### The ends of `INIT` (R113) -/

/-- `INIT` on a faulted unit (R124). -/
theorem exec_init_of_fault {s : State} (hf : s.fault = true) (a n : Word) :
    exec (.init a n) s = .next (s.setOut (.ofStatus .halted)) := by
  have hop : initOp a n s = refuseHalted s := by simp [initOp, hf]
  rw [exec, execInit, hop, refuseHalted, complete_ok]

/-- `INIT` outside `Unloaded` (R113, R123). -/
theorem exec_init_of_phase_ne {s : State} (hf : s.fault = false) (hp : s.phase ≠ .unloaded) (a n : Word) :
    exec (.init a n) s = .next ((s.takeFault .orderViolation).setOut (.ofStatus (.error .orderViolation))) := by
  have hop : initOp a n s = raiseConfigError .orderViolation s := by simp [initOp, hf, hp]
  rw [exec, execInit, hop, raiseConfigError, complete_ok]

/-- After the table load, only the size can make the install at `IDX_TSS` fail (R94, R113). -/
theorem installError_afterTableLoad {s : State} (hc : s.cfg.wf) (m : Memory) (size : Nat) :
    installError (afterTableLoad s m) s.cfg.idxTss size = sizeError s.cfg size := by
  obtain ⟨hpos, hlt⟩ := idxTss_pos_and_lt hc
  have hphase : ¬((afterTableLoad s m).phase ≠ .tableLoaded ∧ (afterTableLoad s m).phase ≠ .tssInstalled) :=
    fun h => h.1 rfl
  have hindex : ¬(s.cfg.idxTss = 0 ∨ s.cfg.gdtEntries ≤ s.cfg.idxTss) := by omega
  rw [installError, if_neg hphase]
  exact if_neg hindex

/-- The table load with no table loaded, its stores in the address space (R106). -/
theorem tableLoadOp_of_store {s : State} (hf : s.fault = false) (hp : s.phase = .unloaded) {m : Memory}
    (hm : storeEntries s.cfg 0 (buildTable s.cfg) s.mem = some m) :
    tableLoadOp s = .next (.ok, afterTableLoad s m) := by
  simp [tableLoadOp, succeed, hf, hp, hm]

/-- `INIT` whose install fails ends with the install's result (R113). -/
theorem initOp_of_install_error {s u : State} (hf : s.fault = false) (hp : s.phase = .unloaded) {m : Memory}
    (hm : storeEntries s.cfg 0 (buildTable s.cfg) s.mem = some m) {a n : Word} {e : ConfigError}
    (hinstall : installTssOp s.cfg.idxTss a n (afterTableLoad s m) = .next (.error e, u)) :
    initOp a n s = .next (.error e, u) := by
  simp [initOp, tableLoadOp_of_store hf hp hm, hf, hp, hinstall]

/-- `INIT` whose install completes ends with the task-register load (R113). -/
theorem initOp_of_install_ok {s u : State} (hf : s.fault = false) (hp : s.phase = .unloaded) {m : Memory}
    (hm : storeEntries s.cfg 0 (buildTable s.cfg) s.mem = some m) {a n : Word}
    (hinstall : installTssOp s.cfg.idxTss a n (afterTableLoad s m) = .next (.ok, u)) :
    initOp a n s = trLoadOp u := by
  simp [initOp, tableLoadOp_of_store hf hp hm, hf, hp, hinstall]

/-- `INIT` of a size the install refuses: the effects of the table load stay (R113). -/
theorem exec_init_of_sizeError {s : State} (hc : s.cfg.wf) (hf : s.fault = false) (hp : s.phase = .unloaded)
    {m : Memory} (hm : storeEntries s.cfg 0 (buildTable s.cfg) s.mem = some m) {n : Word} {e : ConfigError}
    (he : sizeError s.cfg n.toNat = some e) (a : Word) :
    exec (.init a n) s = .next (((afterTableLoad s m).takeFault e).setOut (.ofStatus (.error e))) := by
  rw [← installError_afterTableLoad hc m] at he
  have hinstall := installTssOp_of_error (s := afterTableLoad s m) hf he a
  rw [exec, execInit, initOp_of_install_error hf hp hm hinstall, complete_ok]

/-- The state after a `TR_LOAD` that completes (R107). -/
def afterTrLoad (s : State) : State :=
  ((s.emit (.loadTaskRegister (tssSelector s.cfg))).setPhase .taskRegisterLoaded).setOut (.ofStatus .ok)

/-- The state after an `INIT` that completes, its stores leaving memory `m`: that of the three commands (R113, R118). -/
def afterInit (s : State) (m : Memory) : State := afterTrLoad (afterInstall (afterTableLoad s m) m)

/-- What an `INIT` that completes has written, field by field (R113). -/
theorem afterInit_eq (s : State) (m : Memory) :
    afterInit s m =
      { s with mem := m, ptr := makePointer s.cfg,
               ev := s.ev ++ [.loadDescriptorTable (makePointer s.cfg), .loadTaskRegister (tssSelector s.cfg)],
               phase := .taskRegisterLoaded, out := { status := some .ok } } := by
  rw [List.append_cons]
  rfl

/-- `INIT` of a size the install accepts: all three steps (R113). -/
theorem exec_init_of_stores {s : State} (hc : s.cfg.wf) (hf : s.fault = false) (hp : s.phase = .unloaded)
    {m m' : Memory} (hm : storeEntries s.cfg 0 (buildTable s.cfg) s.mem = some m) {a n : Word}
    (he : sizeError s.cfg n.toNat = none) (hm' : storeEntry s.cfg s.cfg.idxTss (tssDescriptor a n) m = some m') :
    exec (.init a n) s = .next (afterInit s m') := by
  rw [← installError_afterTableLoad hc m] at he
  have hinstall := installTssOp_of_store (s := afterTableLoad s m) hf he hm'
  rw [exec, execInit, initOp_of_install_ok hf hp hm hinstall]
  exact exec_trLoad_of_tssInstalled (s := ((afterTableLoad s m).setMem m').setPhase .tssInstalled) hf rfl

/-- A size of zero is an error (R94). -/
theorem ne_zero_of_sizeError_eq_none {cfg : Config} {n : Word} (h : sizeError cfg n.toNat = none) : n ≠ 0 := by
  rintro rfl
  cases h

/-- The builder's entry of the TSS is the placeholder (R87). -/
theorem tableEntry_idxTss {cfg : Config} (h : cfg.wf) : tableEntry cfg cfg.idxTss = 0 := by
  obtain ⟨hdistinct, -⟩ := h
  simp only [Config.indicesDistinct, List.pairwise_cons, List.forall_mem_cons] at hdistinct
  obtain ⟨-, ⟨-, -, -, hkc, -⟩, ⟨-, -, hkd, -⟩, ⟨-, huc, -⟩, ⟨hud, -⟩, -⟩ := hdistinct
  exact tableEntry_of_unnamed hkc.symm hkd.symm huc.symm hud.symm

/-- Settles O25: the size decides between the two ends of `INIT` with no table loaded; the builder's table is patched at
`IDX_TSS` or left. -/
theorem initEffect : Obligations.InitEffect := by
  intro s a n hc
  refine ⟨fun hf => exec_init_of_fault hf a n, fun hf hp => exec_init_of_phase_ne hf hp a n, fun hf hp => ?_⟩
  obtain ⟨-, hlt⟩ := idxTss_pos_and_lt hc
  obtain ⟨m, hm⟩ := storeTable_ok hc s.mem
  obtain ⟨hbuilt, houtside, -⟩ := storeTable_spec hm
  cases he : sizeError s.cfg n.toNat with
  | some e =>
    refine ⟨m, houtside, fun i hi _ => (hbuilt i hi).trans (buildTable_getElem? hi).symm, fun e' he' => ?_,
      fun hnone => by cases hnone⟩
    cases he'
    exact ⟨exec_init_of_sizeError hc hf hp hm he a, (hbuilt _ hlt).trans (congrArg some (tableEntry_idxTss hc))⟩
  | none =>
    obtain ⟨m', hm'⟩ := storeEntry_ok hc hlt (tssDescriptor a n) m
    obtain ⟨hentry, -, hother, -⟩ := storeEntry_spec hm'
    have hend := exec_init_of_stores hc hf hp hm he hm'
    refine ⟨m', fun x hx => exec_read_outside_table hend hx, fun i hi hne => ?builder, fun e' he' => (by cases he'),
      fun _ => ⟨afterInit_eq s m' ▸ hend, ?entry⟩⟩
    case builder => exact (hother i hne).trans ((hbuilt i hi).trans (buildTable_getElem? hi).symm)
    case entry => rw [← tssDescriptor_eq_pack a (ne_zero_of_sizeError_eq_none he)]; exact hentry

/-! ### `INIT` and the three commands (R118) -/

/-- A run of one command is that command (R41). -/
theorem runCommands_singleton {i : Instr} {s t : State} (h : exec i (s.setInput []) = .next t) :
    runCommands [i] s = .next t := by
  have hin : t.input = [] := exec_input h
  exact runCommands_cons.2 ⟨t, h, runCommands_nil.2 (by rw [← hin])⟩

/-- A run whose first command is a `TABLE_LOAD` that completes (R106). -/
theorem runCommands_tableLoad_cons {s t : State} (hf : s.fault = false) (hp : s.phase = .unloaded) {m : Memory}
    (hm : storeEntries s.cfg 0 (buildTable s.cfg) s.mem = some m) {is : List Instr}
    (h : runCommands is ((afterTableLoad s m).setOut (.ofStatus .ok)) = .next t) :
    runCommands (.tableLoad :: is) s = .next t :=
  runCommands_cons.2 ⟨_, exec_tableLoad_of_store (s := s.setInput (is.map encodePorts)) hf hp hm, h⟩

/-- The three commands with a size the install refuses: `TR_LOAD` finds the unit halted (R118, R124). -/
theorem runCommands_three_of_sizeError {s : State} (hc : s.cfg.wf) (hf : s.fault = false) (hp : s.phase = .unloaded)
    {m : Memory} (hm : storeEntries s.cfg 0 (buildTable s.cfg) s.mem = some m) {n : Word} {e : ConfigError}
    (he : sizeError s.cfg n.toNat = some e) (a : Word) :
    runCommands [.tableLoad, .installTss (BitVec.ofNat 13 s.cfg.idxTss) a n, .trLoad] s =
      .next ((((afterTableLoad s m).takeFault e).setOut (.ofStatus .halted)).setInput []) := by
  rw [← installError_afterTableLoad hc m, ← toNat_ofNat_idxTss hc] at he
  have hinstall := exec_installTss_of_error
    (s := ((afterTableLoad s m).setOut (.ofStatus .ok)).setInput [encodePorts .trLoad]) hf he a
  exact runCommands_tableLoad_cons hf hp hm
    (runCommands_cons.2 ⟨_, hinstall, runCommands_singleton (exec_trLoad_of_fault rfl)⟩)

/-- The three commands with a size the install accepts (R118). -/
theorem runCommands_three_of_stores {s : State} (hc : s.cfg.wf) (hf : s.fault = false) (hp : s.phase = .unloaded)
    {m m' : Memory} (hm : storeEntries s.cfg 0 (buildTable s.cfg) s.mem = some m) {a n : Word}
    (he : sizeError s.cfg n.toNat = none) (hm' : storeEntry s.cfg s.cfg.idxTss (tssDescriptor a n) m = some m') :
    runCommands [.tableLoad, .installTss (BitVec.ofNat 13 s.cfg.idxTss) a n, .trLoad] s =
      .next ((afterInit s m').setInput []) := by
  rw [← installError_afterTableLoad hc m, ← toNat_ofNat_idxTss hc] at he
  rw [← toNat_ofNat_idxTss hc] at hm'
  have hinstall := exec_installTss_of_store
    (s := ((afterTableLoad s m).setOut (.ofStatus .ok)).setInput [encodePorts .trLoad]) hf he hm'
  exact runCommands_tableLoad_cons hf hp hm
    (runCommands_cons.2 ⟨_, hinstall, runCommands_singleton (exec_trLoad_of_tssInstalled hf rfl)⟩)

/-- Settles O56: the size decides the end of both routes, and they store the same memories. -/
theorem initEqualsTheThreeCommands : Obligations.InitEqualsTheThreeCommands := by
  intro s a n hc hf hp
  obtain ⟨m, hm⟩ := storeTable_ok hc s.mem
  cases he : sizeError s.cfg n.toNat with
  | some e =>
    have hinit := exec_init_of_sizeError (s := s.setInput []) hc hf hp hm he a
    exact ⟨_, _, runCommands_singleton hinit, runCommands_three_of_sizeError hc hf hp hm he a, rfl⟩
  | none =>
    obtain ⟨-, hlt⟩ := idxTss_pos_and_lt hc
    obtain ⟨m', hm'⟩ := storeEntry_ok hc hlt (tssDescriptor a n) m
    have hinit := exec_init_of_stores (s := s.setInput []) hc hf hp hm he hm'
    exact ⟨_, _, runCommands_singleton hinit, runCommands_three_of_stores hc hf hp hm he hm', rfl⟩

end Sys2Proof.Machine

/-! The transition table, cell by cell (O26). -/

namespace Sys2Proof.Machine

open Sys2Proof

/-! ### The cells of an install (R94, R112) -/

/-- The size checks find no order violation (R94). -/
theorem sizeError_ne_orderViolation (cfg : Config) (size : Nat) : sizeError cfg size ≠ some .orderViolation := by
  unfold sizeError
  split_ifs <;> simp

/-- Rule R112 admits an install in the phases rule R94 does. -/
theorem transition_installTss_eq_none_iff {k : BitVec 13} {a n : Word} {p : Phase} :
    transition (.installTss k a n) p = none ↔ p ≠ .tableLoaded ∧ p ≠ .tssInstalled := by
  simp [transition]

/-- The checks of an install end with an order violation exactly where the table has no transition (R94, R112). -/
theorem installError_eq_orderViolation_iff {s : State} {k : BitVec 13} {a n : Word} {i size : Nat} :
    installError s i size = some .orderViolation ↔ transition (.installTss k a n) s.phase = none := by
  rw [transition_installTss_eq_none_iff, installError]
  split_ifs with hphase hindex
  · exact iff_of_true rfl hphase
  · exact iff_of_false (by simp) hphase
  · exact iff_of_false (sizeError_ne_orderViolation _ _) hphase

/-! ### What the table says of an answer -/

/-- The answer `t` of command `i` in state `s` is the one the cell of the transition table says (R112, R113). -/
def AnswersCell (i : Instr) (s t : State) : Prop :=
  (transition i s.phase = none →
    t = { s with fault := true, cause := .error .orderViolation,
                 out := { status := some (.error .orderViolation) } }) ∧
  (∀ p, transition i s.phase = some p →
    t.out.status ≠ some (.error .orderViolation) ∧
    (t.out.status = some .ok → t.phase = p ∧ t.fault = false) ∧
    (t.out.status ≠ some .ok → t.fault = true ∧ ((∀ a n, i ≠ .init a n) → t.phase = s.phase)))

/-- In a cell with no transition the answer is a sticky order violation. -/
theorem AnswersCell.of_refused {i : Instr} {s : State} (h : transition i s.phase = none) :
    AnswersCell i s ((s.takeFault .orderViolation).setOut (.ofStatus (.error .orderViolation))) :=
  ⟨fun _ => rfl, fun p hp => by simp [h] at hp⟩

/-- In a cell with a transition the answer may be another sticky error, `u` the state it is found in. -/
theorem AnswersCell.of_error {i : Instr} {s u : State} {e : ConfigError} (h : transition i s.phase ≠ none)
    (he : e ≠ .orderViolation) (hu : (∀ a n, i ≠ .init a n) → u.phase = s.phase) :
    AnswersCell i s ((u.takeFault e).setOut (.ofStatus (.error e))) := by
  refine ⟨fun hnone => absurd hnone h, fun p _ => ⟨?_, fun hok => (by cases hok), fun _ => ⟨rfl, hu⟩⟩⟩
  simpa [Outputs.ofStatus] using he

/-- In a cell with a transition the answer may be its phase, with `Ok`. -/
theorem AnswersCell.of_ok {i : Instr} {s t : State} (h : transition i s.phase = some t.phase) (hf : t.fault = false)
    (hok : t.out.status = some .ok) : AnswersCell i s t := by
  refine ⟨fun hnone => by simp [h] at hnone,
    fun p hp => ⟨by simp [hok], fun _ => ⟨?_, hf⟩, fun hne => absurd hok hne⟩⟩
  exact Option.some.inj (h.symm.trans hp)

/-! ### The four rows -/

/-- The row of `TABLE_LOAD` (R106, R112). -/
theorem tableLoad_answersCell {s : State} (hc : s.cfg.wf) (hf : s.fault = false) :
    ∃ t, exec .tableLoad s = .next t ∧ AnswersCell .tableLoad s t := by
  by_cases hp : s.phase = .unloaded
  · obtain ⟨m, hm⟩ := storeTable_ok hc s.mem
    exact ⟨_, exec_tableLoad_of_store hf hp hm, .of_ok (by rw [hp]; rfl) hf rfl⟩
  · exact ⟨_, exec_tableLoad_of_phase_ne hf hp, .of_refused (if_neg hp)⟩

/-- The row of `INSTALL_TSS` (R94, R112). -/
theorem installTss_answersCell {s : State} (hc : s.cfg.wf) (hf : s.fault = false) (k : BitVec 13) (a n : Word) :
    ∃ t, exec (.installTss k a n) s = .next t ∧ AnswersCell (.installTss k a n) s t := by
  cases he : installError s k.toNat n.toNat with
  | none =>
    obtain ⟨hadmits, -, hlt, -⟩ := installError_eq_none_iff.1 he
    obtain ⟨m, hm⟩ := storeEntry_ok hc hlt (tssDescriptor a n) s.mem
    refine ⟨_, exec_installTss_of_store hf he hm, .of_ok (if_pos ?_) hf rfl⟩
    simpa [admitsInstall] using hadmits
  | some e =>
    refine ⟨_, exec_installTss_of_error hf he a, ?_⟩
    by_cases hviolation : e = .orderViolation
    · subst hviolation
      exact .of_refused (installError_eq_orderViolation_iff.1 he)
    · refine .of_error (fun hnone => hviolation ?_) hviolation fun _ => rfl
      exact Option.some.inj (he.symm.trans (installError_eq_orderViolation_iff.2 hnone))

/-- The row of `TR_LOAD` (R107, R112). -/
theorem trLoad_answersCell {s : State} (hf : s.fault = false) :
    ∃ t, exec .trLoad s = .next t ∧ AnswersCell .trLoad s t := by
  by_cases hp : s.phase = .tssInstalled
  · exact ⟨_, exec_trLoad_of_tssInstalled hf hp, .of_ok (by rw [hp]; rfl) hf rfl⟩
  · exact ⟨_, exec_trLoad_of_phase_ne hf hp, .of_refused (if_neg hp)⟩

/-- The row of `INIT` (R112, R113, log 18). -/
theorem init_answersCell {s : State} (hc : s.cfg.wf) (hf : s.fault = false) (a n : Word) :
    ∃ t, exec (.init a n) s = .next t ∧ AnswersCell (.init a n) s t := by
  by_cases hp : s.phase = .unloaded
  · obtain ⟨-, hlt⟩ := idxTss_pos_and_lt hc
    obtain ⟨m, hm⟩ := storeTable_ok hc s.mem
    cases he : sizeError s.cfg n.toNat with
    | some e =>
      refine ⟨_, exec_init_of_sizeError hc hf hp hm he a, .of_error (by simp [transition, hp]) ?_ ?_⟩
      · rintro rfl
        exact sizeError_ne_orderViolation _ _ he
      · exact fun hi => absurd rfl (hi a n)
    | none =>
      obtain ⟨m', hm'⟩ := storeEntry_ok hc hlt (tssDescriptor a n) m
      exact ⟨_, exec_init_of_stores hc hf hp hm he hm', .of_ok (by rw [hp]; rfl) hf rfl⟩
  · exact ⟨_, exec_init_of_phase_ne hf hp a n, .of_refused (if_neg hp)⟩

/-- Settles O26: one row of the table for each sequenced command. -/
theorem transitionTable : Obligations.TransitionTable := by
  intro i s hc hf hi
  cases i with
  | encode | decode | selector => cases hi
  | tableLoad => exact tableLoad_answersCell hc hf
  | installTss k a n => exact installTss_answersCell hc hf k a n
  | trLoad => exact trLoad_answersCell hf
  | init a n => exact init_answersCell hc hf a n

end Sys2Proof.Machine

/-! The orders of commands that reach the end of a run (O57). -/

namespace Sys2Proof.Machine

open Sys2Proof

/-! ### A run without a fault follows the transition table (R112) -/

/-- A command that leaves no fault has found none, and leads to the phase the transition table gives (R112, R124). -/
theorem transition_of_exec {i : Instr} {s t : State} (h : exec i s = .next t) (ht : t.fault = false) :
    s.fault = false ∧ transition i s.phase = some t.phase := by
  have notHalted {o : Outputs} (hf : s.fault = true) (ht : (s.setOut o).fault = false) : False := by
    simp [hf] at ht
  cases i with
  | encode | decode | selector =>
    obtain ⟨o, rfl⟩ := execPure_next rfl h
    exact ⟨ht, rfl⟩
  | tableLoad =>
    obtain ⟨hf, rfl⟩ | ⟨-, -, rfl⟩ | ⟨hf, hp, m, -, rfl⟩ := execTableLoad_next h
    · exact (notHalted hf ht).elim
    · cases ht
    · exact ⟨hf, if_pos hp⟩
  | installTss k a n =>
    obtain ⟨hf, rfl⟩ | ⟨-, c, rfl⟩ | ⟨hf, hp, -, -, -, -, m, -, rfl⟩ := execInstallTss_next h
    · exact (notHalted hf ht).elim
    · cases ht
    · exact ⟨hf, if_pos (by simpa [admitsInstall] using hp)⟩
  | trLoad =>
    obtain ⟨hf, rfl⟩ | ⟨-, -, rfl⟩ | ⟨hf, hp, rfl⟩ := execTrLoad_next h
    · exact (notHalted hf ht).elim
    · cases ht
    · exact ⟨hf, if_pos hp⟩
  | init a n =>
    obtain ⟨hf, rfl⟩ | ⟨-, -, rfl⟩ | ⟨hf, hp, m, -, ⟨c, -, rfl⟩ | ⟨-, -, -, -, m2, -, rfl⟩⟩ := execInit_next h
    · exact (notHalted hf ht).elim
    · cases ht
    · cases ht
    · exact ⟨hf, if_pos hp⟩

/-- The phase the transition table leads to from a phase over a list of commands, `none` where it has no transition for
one of them (R112). -/
def transitions : List Instr → Phase → Option Phase
  | [], p => some p
  | i :: is, p => (transition i p).bind (transitions is)

/-- The table leads over a list as over its first command, then over the rest. -/
theorem transitions_cons_eq_some {i : Instr} {is : List Instr} {p q : Phase} :
    transitions (i :: is) p = some q ↔ ∃ r, transition i p = some r ∧ transitions is r = some q :=
  Option.bind_eq_some_iff

/-- A run that leaves no fault began with none, and ends in the phase the transition table leads to (R112). -/
theorem transitions_of_runCommands {is : List Instr} {s t : State} (h : runCommands is s = .next t)
    (ht : t.fault = false) : s.fault = false ∧ transitions is s.phase = some t.phase := by
  induction is generalizing s with
  | nil =>
    obtain rfl := runCommands_nil.1 h
    exact ⟨ht, rfl⟩
  | cons i is ih =>
    obtain ⟨u, hexec, hrun⟩ := runCommands_cons.1 h
    obtain ⟨hfu, hrest⟩ := ih hrun
    obtain ⟨hf, hfirst⟩ := transition_of_exec hexec hfu
    exact ⟨hf, transitions_cons_eq_some.2 ⟨u.phase, hfirst, hrest⟩⟩

/-- The table leads over the sequenced commands of a list as over all of it: the pure ones leave the phase (R112). -/
theorem transitions_filter_isSequenced (is : List Instr) (p : Phase) :
    transitions (is.filter Instr.isSequenced) p = transitions is p := by
  induction is generalizing p with
  | nil => rfl
  | cons i is ih =>
    cases i with
    | encode | decode | selector => exact ih p
    | tableLoad | installTss | trLoad | init => exact congrArg (Option.bind _) (funext ih)

/-! ### The ways through the table to its last phase (R114) -/

/-- From `TaskRegisterLoaded` no sequenced command is admitted (R112). -/
theorem transition_taskRegisterLoaded {i : Instr} (hi : i.isSequenced = true) :
    transition i .taskRegisterLoaded = none := by
  cases i with
  | encode | decode | selector => cases hi
  | tableLoad | installTss | trLoad | init => rfl

/-- From `TaskRegisterLoaded` the way through the table has no sequenced command left. -/
theorem eq_nil_of_transitions_taskRegisterLoaded {is : List Instr} {q : Phase}
    (hseq : ∀ i ∈ is, i.isSequenced = true) (h : transitions is .taskRegisterLoaded = some q) : is = [] := by
  cases is with
  | nil => rfl
  | cons i is =>
    obtain ⟨r, hr, -⟩ := transitions_cons_eq_some.1 h
    rw [transition_taskRegisterLoaded (hseq i List.mem_cons_self)] at hr
    cases hr

/-- From `TSSInstalled` the way to the last phase is any number of installs, then `TR_LOAD`. -/
theorem installs_trLoad_of_transitions_tssInstalled {is : List Instr} (hseq : ∀ i ∈ is, i.isSequenced = true)
    (h : transitions is .tssInstalled = some .taskRegisterLoaded) :
    ∃ js : List Instr, (∀ j ∈ js, ∃ k a n, j = .installTss k a n) ∧ is = js ++ [.trLoad] := by
  induction is with
  | nil => cases h
  | cons i is ih =>
    obtain ⟨hi, his⟩ := List.forall_mem_cons.1 hseq
    obtain ⟨r, hr, hrest⟩ := transitions_cons_eq_some.1 h
    cases i with
    | encode | decode | selector => cases hi
    | tableLoad | init => cases hr
    | installTss k a n =>
      cases hr
      obtain ⟨js, hjs, rfl⟩ := ih his hrest
      exact ⟨.installTss k a n :: js, List.forall_mem_cons.2 ⟨⟨k, a, n, rfl⟩, hjs⟩, rfl⟩
    | trLoad =>
      cases hr
      obtain rfl := eq_nil_of_transitions_taskRegisterLoaded his hrest
      exact ⟨[], fun _ hj => absurd hj List.not_mem_nil, rfl⟩

/-- From `TableLoaded` the way to the last phase begins with an install. -/
theorem installs_trLoad_of_transitions_tableLoaded {is : List Instr} (hseq : ∀ i ∈ is, i.isSequenced = true)
    (h : transitions is .tableLoaded = some .taskRegisterLoaded) :
    ∃ js : List Instr, js ≠ [] ∧ (∀ j ∈ js, ∃ k a n, j = .installTss k a n) ∧ is = js ++ [.trLoad] := by
  cases is with
  | nil => cases h
  | cons i is =>
    obtain ⟨hi, his⟩ := List.forall_mem_cons.1 hseq
    obtain ⟨r, hr, hrest⟩ := transitions_cons_eq_some.1 h
    cases i with
    | encode | decode | selector => cases hi
    | tableLoad | trLoad | init => cases hr
    | installTss k a n =>
      cases hr
      obtain ⟨js, hjs, rfl⟩ := installs_trLoad_of_transitions_tssInstalled his hrest
      exact ⟨.installTss k a n :: js, List.cons_ne_nil _ _, List.forall_mem_cons.2 ⟨⟨k, a, n, rfl⟩, hjs⟩, rfl⟩

/-- From `Unloaded` the way to the last phase is one `INIT`, or `TABLE_LOAD`, installs and `TR_LOAD` (R114). -/
theorem init_or_three_of_transitions_unloaded {is : List Instr} (hseq : ∀ i ∈ is, i.isSequenced = true)
    (h : transitions is .unloaded = some .taskRegisterLoaded) :
    (∃ a n, is = [.init a n]) ∨
    (∃ js : List Instr, js ≠ [] ∧ (∀ j ∈ js, ∃ k a n, j = .installTss k a n) ∧
      is = .tableLoad :: js ++ [.trLoad]) := by
  cases is with
  | nil => cases h
  | cons i is =>
    obtain ⟨hi, his⟩ := List.forall_mem_cons.1 hseq
    obtain ⟨r, hr, hrest⟩ := transitions_cons_eq_some.1 h
    cases i with
    | encode | decode | selector => cases hi
    | installTss | trLoad => cases hr
    | tableLoad =>
      cases hr
      obtain ⟨js, hne, hjs, rfl⟩ := installs_trLoad_of_transitions_tableLoaded his hrest
      exact .inr ⟨js, hne, hjs, rfl⟩
    | init a n =>
      cases hr
      obtain rfl := eq_nil_of_transitions_taskRegisterLoaded his hrest
      exact .inl ⟨a, n, rfl⟩

/-- Settles O57: the sequenced commands of the run are a way through the table from its first phase to its last. -/
theorem onlyOneOrderReachesTheEnd : Obligations.OnlyOneOrderReachesTheEnd := by
  intro is s t _ hp h hend
  obtain ⟨hpt, hft⟩ := hend
  obtain ⟨-, hway⟩ := transitions_of_runCommands h hft
  rw [hp, hpt, ← transitions_filter_isSequenced] at hway
  exact init_or_three_of_transitions_unloaded (fun _ hi => List.of_mem_filter hi) hway

end Sys2Proof.Machine

/-! The codes of `status`, `CAUSE` and `PHASE` (O29). -/

namespace Sys2Proof.Machine

open Sys2Proof

/-- The result a code of rule R120 stands for; the unit never produces code 7, which is read as `Halted`. -/
def Status.ofCode (c : BitVec 3) : Status :=
  match c.toNat with
  | 0 => .ok
  | 1 => .error .limitOverflow
  | 2 => .error .orderViolation
  | 3 => .error .indexOutOfRange
  | 4 => .error .badTssSize
  | 5 => .reservedOp
  | _ => .halted

/-- The code of a result tells which result it is (R120). -/
theorem Status.ofCode_code (c : Status) : Status.ofCode c.code = c := by
  cases c with
  | ok | reservedOp | halted => rfl
  | error e => cases e <;> rfl

/-- Code 7 is the code of no result (R120). -/
theorem Status.code_ne_seven (c : Status) : c.code ≠ 7 := by
  cases c with
  | ok | reservedOp | halted => decide
  | error e => cases e <;> decide

/-- Settles O29: each code as the rules list it; reading a code back makes the codes of `status` distinct. -/
theorem codesOfStatusCauseAndPhase : Obligations.CodesOfStatusCauseAndPhase := by
  have hinj : Function.Injective Status.code := Function.LeftInverse.injective Status.ofCode_code
  exact ⟨rfl, rfl, rfl, rfl, rfl, rfl, rfl, Status.code_ne_seven, fun _ _ h => hinj h, rfl, fun _ => rfl, rfl, rfl, rfl,
    rfl⟩

end Sys2Proof.Machine

/-! A fault halts the sequence (O33), and a fault of a single-step command is precise (O32). -/

namespace Sys2Proof.Machine

open Sys2Proof

/-- A sequenced command on a faulted unit returns `Halted` (R124). -/
theorem exec_sequenced_of_fault {i : Instr} {s : State} (hi : i.isSequenced = true) (hf : s.fault = true) :
    exec i s = .next (s.setOut (.ofStatus .halted)) := by
  cases i with
  | encode | decode | selector => cases hi
  | tableLoad => exact exec_tableLoad_of_fault hf
  | installTss k a n => rw [exec_installTss, installTssOp_of_fault hf, complete_ok]
  | trLoad => exact exec_trLoad_of_fault hf
  | init a n => exact exec_init_of_fault hf a n

/-- A move of a faulted unit keeps `FAULT`, `CAUSE` and `PHASE`: the moves that write them need `FAULT` 0 (R124). -/
theorem Move.fault_cause_phase_eq {s t : State} (h : Move s t) (hs : s.fault = true) :
    t.fault = true ∧ t.cause = s.cause ∧ t.phase = s.phase := by
  have faulted (hf : s.fault = false) : False := by simp [hs] at hf
  cases h with
  | input | output => exact ⟨hs, rfl, rfl⟩
  | fault hf | load hf | install hf | trLoad hf => exact (faulted hf).elim

/-- A step of a faulted unit keeps `FAULT`, `CAUSE` and `PHASE` (R124). -/
theorem step_fault_cause_phase_eq {s t : State} (h : step s = .next t) (hs : s.fault = true) :
    t.fault = true ∧ t.cause = s.cause ∧ t.phase = s.phase := by
  refine step_keeps (P := fun u => u.fault = true ∧ u.cause = s.cause ∧ u.phase = s.phase) ?_ h ⟨hs, rfl, rfl⟩
  rintro u v hm ⟨hfault, hcause, hphase⟩
  obtain ⟨hfault', hcause', hphase'⟩ := hm.fault_cause_phase_eq hfault
  exact ⟨hfault', hcause'.trans hcause, hphase'.trans hphase⟩

/-- Settles O33: a pure command reads neither `FAULT` nor `CAUSE` (R79), and no move of a faulted unit writes them. -/
theorem faultHaltsTheSequenceUntilReset : Obligations.FaultHaltsTheSequenceUntilReset :=
  fun s hf => ⟨fun _ hi => exec_sequenced_of_fault hi hf,
    fun i hi => pureResultsDependOnOperandsOnly i s { s with fault := false, cause := .none } hi rfl rfl,
    fun _ h => step_fault_cause_phase_eq h hf, fun _ => ⟨rfl, rfl, rfl⟩⟩

/-- Settles O32: of the ends of the three commands, those with an error take the fault and write `status`. -/
theorem singleStepFaultsArePrecise : Obligations.SingleStepFaultsArePrecise := by
  rintro i s t c (rfl | ⟨k, a, n, rfl⟩ | rfl) h hstatus
  · obtain ⟨-, rfl⟩ | ⟨-, -, rfl⟩ | ⟨-, -, m, -, rfl⟩ := execTableLoad_next h <;> cases hstatus
    rfl
  · obtain ⟨-, rfl⟩ | ⟨-, e, rfl⟩ | ⟨-, -, -, -, -, -, m, -, rfl⟩ := execInstallTss_next h <;> cases hstatus
    rfl
  · obtain ⟨-, rfl⟩ | ⟨-, -, rfl⟩ | ⟨-, -, rfl⟩ := execTrLoad_next h <;> cases hstatus
    rfl

end Sys2Proof.Machine

/-! The status of a command is its first failing check (O31), and the codes each command can give (O30). -/

namespace Sys2Proof.Machine

open Sys2Proof

/-! ### The checks of rule R125 -/

/-- The checks of rule R125 that come after `FAULT` and `PHASE`: the index, the zero size, the limit. -/
def operandStatus (cfg : Config) (i : Instr) : Status :=
  if indexOperandRefused cfg i then .error .indexOutOfRange
  else if sizeOperandZero i then .error .badTssSize
  else if limitOperandRefused cfg i then .error .limitOverflow
  else .ok

/-- The code command `i` reports in state `s` by the order of checks of rule R125. -/
def checkedStatus (i : Instr) (s : State) : Status :=
  if i.isSequenced && s.fault then .halted
  else if phaseRefused i s.phase then .error .orderViolation
  else operandStatus s.cfg i

theorem expectedStatus_of_decode_ok {p : Ports} {i : Instr} (h : decodePorts p = .ok i) (s : State) :
    expectedStatus p s = checkedStatus i s := by
  rw [expectedStatus, h]
  rfl

theorem expectedStatus_of_decode_error {p : Ports} {r : Reject} (h : decodePorts p = .error r) (s : State) :
    expectedStatus p s = .reservedOp := by
  rw [expectedStatus, h]

/-- The first check of a sequenced command finds a faulted unit (R124). -/
theorem checkedStatus_of_fault {i : Instr} {s : State} (hi : i.isSequenced = true) (hf : s.fault = true) :
    checkedStatus i s = .halted := by
  simp [checkedStatus, hi, hf]

/-- In a phase the table has no transition from, an unfaulted unit finds an order violation (R112). -/
theorem checkedStatus_of_refused {i : Instr} {s : State} (hf : s.fault = false) (hp : transition i s.phase = none) :
    checkedStatus i s = .error .orderViolation := by
  simp [checkedStatus, hf, phaseRefused, hp]

/-- In a phase the table has a transition from, the operands decide on an unfaulted unit (R112). -/
theorem checkedStatus_of_admitted {i : Instr} {s : State} (hf : s.fault = false) (hp : transition i s.phase ≠ none) :
    checkedStatus i s = operandStatus s.cfg i := by
  simp [checkedStatus, hf, phaseRefused, hp]

/-- The status a list of checks ends with: the error found, or `Ok`. -/
def Status.ofError : Option ConfigError → Status
  | some e => .error e
  | none   => .ok

theorem operandStatus_encode (cfg : Config) (base limit : Word) (access flags : Byte) :
    operandStatus cfg (.encode base limit access flags) =
      if limitRejected cfg limit then .error .limitOverflow else .ok := by
  simp [operandStatus, indexOperandRefused, sizeOperandZero, limitOperandRefused, limitRejected_eq_true_iff]

/-- The checks of an `INIT`'s operands are those of rule R113. -/
theorem operandStatus_init (cfg : Config) (a n : Word) :
    operandStatus cfg (.init a n) = Status.ofError (sizeError cfg n.toNat) := by
  simp only [operandStatus, indexOperandRefused, sizeOperandZero, limitOperandRefused, decide_eq_true_eq, sizeError,
    Bool.false_eq_true, if_false]
  split_ifs <;> rfl

/-- The checks of an install after `FAULT` are those of rule R94. -/
theorem checkedStatus_installTss {s : State} (hf : s.fault = false) (k : BitVec 13) (a n : Word) :
    checkedStatus (.installTss k a n) s = Status.ofError (installError s k.toNat n.toNat) := by
  by_cases hp : transition (.installTss k a n) s.phase = none
  · rw [checkedStatus_of_refused hf hp, installError_eq_orderViolation_iff.2 hp]
    rfl
  · rw [checkedStatus_of_admitted hf hp, installError, if_neg (mt transition_installTss_eq_none_iff.2 hp)]
    simp only [operandStatus, indexOperandRefused, sizeOperandZero, limitOperandRefused, decide_eq_true_eq, sizeError]
    split_ifs <;> rfl

/-! ### Every command reports the first check that fails -/

/-- Command `i` answers in state `s`, and reports the code of rule R125. -/
def ReportsFirstFailure (i : Instr) (s : State) : Prop :=
  ∃ t, exec i s = .next t ∧ t.out.status = some (checkedStatus i s)

/-- A command that answers a state whose status is the code of rule R125 reports it. -/
theorem ReportsFirstFailure.of_exec {i : Instr} {s t : State} (h : exec i s = .next t) {c : Status}
    (ht : t.out.status = some c) (hc : checkedStatus i s = c) : ReportsFirstFailure i s :=
  ⟨t, h, hc ▸ ht⟩

theorem encode_reportsFirstFailure (base limit : Word) (access flags : Byte) (s : State) :
    ReportsFirstFailure (.encode base limit access flags) s := by
  have hchecked : checkedStatus (.encode base limit access flags) s =
      if limitRejected s.cfg limit then .error .limitOverflow else .ok := operandStatus_encode ..
  cases hr : limitRejected s.cfg limit with
  | true => exact .of_exec (exec_encode_of_rejected hr ..) rfl (by rw [hchecked, hr]; rfl)
  | false => exact .of_exec (exec_encode_of_accepted hr ..) rfl (by rw [hchecked, hr]; rfl)

theorem tableLoad_reportsFirstFailure {s : State} (hc : s.cfg.wf) (hf : s.fault = false) :
    ReportsFirstFailure .tableLoad s := by
  by_cases hp : s.phase = .unloaded
  · obtain ⟨m, hm⟩ := storeTable_ok hc s.mem
    exact .of_exec (exec_tableLoad_of_store hf hp hm) rfl (checkedStatus_of_admitted hf (by simp [transition, hp]))
  · exact .of_exec (exec_tableLoad_of_phase_ne hf hp) rfl (checkedStatus_of_refused hf (if_neg hp))

theorem installTss_reportsFirstFailure {s : State} (hc : s.cfg.wf) (hf : s.fault = false) (k : BitVec 13)
    (a n : Word) : ReportsFirstFailure (.installTss k a n) s := by
  have hchecked := checkedStatus_installTss hf k a n
  cases he : installError s k.toNat n.toNat with
  | some e => exact .of_exec (exec_installTss_of_error hf he a) rfl (by rw [hchecked, he]; rfl)
  | none =>
    obtain ⟨-, -, hlt, -⟩ := installError_eq_none_iff.1 he
    obtain ⟨m, hm⟩ := storeEntry_ok hc hlt (tssDescriptor a n) s.mem
    exact .of_exec (exec_installTss_of_store hf he hm) rfl (by rw [hchecked, he]; rfl)

theorem trLoad_reportsFirstFailure {s : State} (hf : s.fault = false) : ReportsFirstFailure .trLoad s := by
  by_cases hp : s.phase = .tssInstalled
  · exact .of_exec (exec_trLoad_of_tssInstalled hf hp) rfl (checkedStatus_of_admitted hf (by simp [transition, hp]))
  · exact .of_exec (exec_trLoad_of_phase_ne hf hp) rfl (checkedStatus_of_refused hf (if_neg hp))

theorem init_reportsFirstFailure {s : State} (hc : s.cfg.wf) (hf : s.fault = false) (a n : Word) :
    ReportsFirstFailure (.init a n) s := by
  by_cases hp : s.phase = .unloaded
  · have hchecked : checkedStatus (.init a n) s = Status.ofError (sizeError s.cfg n.toNat) := by
      rw [checkedStatus_of_admitted hf (by simp [transition, hp]), operandStatus_init]
    obtain ⟨m, hm⟩ := storeTable_ok hc s.mem
    cases he : sizeError s.cfg n.toNat with
    | some e => exact .of_exec (exec_init_of_sizeError hc hf hp hm he a) rfl (by rw [hchecked, he]; rfl)
    | none =>
      obtain ⟨-, hlt⟩ := idxTss_pos_and_lt hc
      obtain ⟨m', hm'⟩ := storeEntry_ok hc hlt (tssDescriptor a n) m
      exact .of_exec (exec_init_of_stores hc hf hp hm he hm') rfl (by rw [hchecked, he]; rfl)
  · exact .of_exec (exec_init_of_phase_ne hf hp a n) rfl (checkedStatus_of_refused hf (if_neg hp))

/-- Every command answers, and reports the first check of rule R125 that fails. -/
theorem reportsFirstFailure {s : State} (hc : s.cfg.wf) (i : Instr) : ReportsFirstFailure i s := by
  by_cases hhalted : i.isSequenced = true ∧ s.fault = true
  · obtain ⟨hi, hf⟩ := hhalted
    exact .of_exec (exec_sequenced_of_fault hi hf) rfl (checkedStatus_of_fault hi hf)
  have unfaulted (hi : i.isSequenced = true) : s.fault = false := by simpa [hi] using hhalted
  cases i with
  | encode base limit access flags => exact encode_reportsFirstFailure base limit access flags s
  | decode d => exact .of_exec (exec_decode d s) rfl rfl
  | selector index rpl => exact .of_exec (exec_selector index rpl s) rfl rfl
  | tableLoad => exact tableLoad_reportsFirstFailure hc (unfaulted rfl)
  | installTss k a n => exact installTss_reportsFirstFailure hc (unfaulted rfl) k a n
  | trLoad => exact trLoad_reportsFirstFailure (unfaulted rfl)
  | init a n => exact init_reportsFirstFailure hc (unfaulted rfl) a n

/-- Settles O31: the operation code is the first check, made by the decoder; the command makes the others. -/
theorem firstFailingCheckIsReported : Obligations.FirstFailingCheckIsReported := by
  intro s p rest hc hin
  cases hd : decodePorts p with
  | error r =>
    rw [expectedStatus_of_decode_error hd]
    exact ⟨_, step_of_decode_error hin hd, rfl⟩
  | ok i =>
    rw [expectedStatus_of_decode_ok hd, step_of_decode_ok hin hd]
    exact reportsFirstFailure (s := s.setInput rest) hc i

/-! ### The codes of each command (R121) -/

/-- Every sequenced command has `Halted` in its row of rule R121. -/
theorem mayGive_halted {i : Instr} (hi : i.isSequenced = true) : mayGive i.opcode .halted = true := by
  cases i with
  | encode | decode | selector => cases hi
  | tableLoad | installTss | trLoad | init => rfl

/-- Every command a phase refuses has `OrderViolation` in its row of rule R121. -/
theorem mayGive_orderViolation {i : Instr} {p : Phase} (h : phaseRefused i p = true) :
    mayGive i.opcode (.error .orderViolation) = true := by
  cases i with
  | encode | decode | selector => cases h
  | tableLoad | installTss | trLoad | init => rfl

/-- What the operands of a command decide is in its row of rule R121. -/
theorem mayGive_operandStatus (cfg : Config) (i : Instr) : mayGive i.opcode (operandStatus cfg i) = true := by
  cases i with
  | encode base limit access flags =>
    rw [operandStatus_encode]
    split_ifs <;> rfl
  | decode | selector | tableLoad | trLoad => rfl
  | installTss k a n =>
    unfold operandStatus
    split_ifs <;> rfl
  | init a n =>
    rw [operandStatus_init, sizeError]
    split_ifs <;> rfl

/-- The first failing check of a command is in its row of rule R121. -/
theorem mayGive_checkedStatus (i : Instr) (s : State) : mayGive i.opcode (checkedStatus i s) = true := by
  unfold checkedStatus
  split_ifs with hhalted hphase
  · exact mayGive_halted (Bool.and_eq_true_iff.1 hhalted).1
  · exact mayGive_orderViolation hphase
  · exact mayGive_operandStatus s.cfg i

/-- Under `TRUNCATE` no limit is refused (R8, R121). -/
theorem limitOperandRefused_of_truncate {cfg : Config} (h : cfg.limitPolicy = .truncate) (i : Instr) :
    limitOperandRefused cfg i = false := by
  cases i <;> simp [limitOperandRefused, h]

/-- Under `TRUNCATE` the first failing check is never the limit (R121). -/
theorem checkedStatus_ne_limitOverflow {s : State} (h : s.cfg.limitPolicy = .truncate) (i : Instr) :
    checkedStatus i s ≠ .error .limitOverflow := by
  rw [checkedStatus, operandStatus, limitOperandRefused_of_truncate h, if_neg Bool.false_ne_true]
  split_ifs <;> decide

/-- The unit at reset but for `PHASE` and `FAULT`. -/
def resetIn (p : Phase) (fault : Bool) : State := { State.reset with phase := p, fault := fault }

/-- For each code of each row of rule R121, a command of the row and a state in which its first failing check is that
code's. -/
def codeExamples : List (Instr × State) :=
  [(.encode 0 0 0 0, resetIn .unloaded false),
   (.encode 0 0x100000 0 0, resetIn .unloaded false),
   (.decode 0, resetIn .unloaded false),
   (.selector 0 0, resetIn .unloaded false),
   (.tableLoad, resetIn .unloaded false),
   (.tableLoad, resetIn .tableLoaded false),
   (.tableLoad, resetIn .unloaded true),
   (.installTss 5 0 1, resetIn .tableLoaded false),
   (.installTss 5 0 0x100001, resetIn .tableLoaded false),
   (.installTss 5 0 1, resetIn .unloaded false),
   (.installTss 0 0 1, resetIn .tableLoaded false),
   (.installTss 5 0 0, resetIn .tableLoaded false),
   (.installTss 5 0 1, resetIn .tableLoaded true),
   (.trLoad, resetIn .tssInstalled false),
   (.trLoad, resetIn .unloaded false),
   (.trLoad, resetIn .tssInstalled true),
   (.init 0 1, resetIn .unloaded false),
   (.init 0 0x100001, resetIn .unloaded false),
   (.init 0 1, resetIn .tableLoaded false),
   (.init 0 0, resetIn .unloaded false),
   (.init 0 1, resetIn .unloaded true)]

/-- The examples are in a legal configuration. -/
theorem codeExamples_wf : ∀ x ∈ codeExamples, x.2.cfg.wf := by
  decide

/-- The examples cover the table of rule R121. -/
theorem codeExamples_cover (op : BitVec 4) (c : Status) (h : mayGive op c = true) :
    ∃ x ∈ codeExamples, x.1.opcode = op ∧ checkedStatus x.1 x.2 = c := by
  cases c with
  | ok | reservedOp | halted => decide +revert
  | error e => cases e with
    | limitOverflow | orderViolation | indexOutOfRange | badTssSize => decide +revert

/-- Settles O30: the code given is that of the first failing check; the examples give every code of every row. -/
theorem codesOfEachCommand : Obligations.CodesOfEachCommand := by
  refine ⟨fun i s t hc h => ?inRow, fun op c hgive => ?given⟩
  case inRow =>
    obtain ⟨t', ht', hstatus⟩ := reportsFirstFailure hc i
    cases h.symm.trans ht'
    exact ⟨_, hstatus, mayGive_checkedStatus i s, fun htrunc => checkedStatus_ne_limitOverflow htrunc i⟩
  case given =>
    obtain ⟨⟨i, s⟩, hx, hop, rfl⟩ := codeExamples_cover op c hgive
    have hc : s.cfg.wf := codeExamples_wf _ hx
    obtain ⟨t, ht, hstatus⟩ := reportsFirstFailure hc i
    exact ⟨i, s, t, hop, hc, ht, hstatus⟩

end Sys2Proof.Machine

/-! Reset and memory (O37), and the answer of every step (O49). -/

namespace Sys2Proof.Machine

open Sys2Proof

/-! ### Reset (R138) -/

/-- Settles O37: reset leaves `Unloaded` with no fault, so the `TABLE_LOAD` after it completes, and the entry of the TSS
is the builder's. -/
theorem resetKeepsMemory : Obligations.ResetKeepsMemory := by
  refine fun s p => ⟨rfl, rfl, fun hc => ?_⟩
  obtain ⟨m, hm⟩ := storeTable_ok hc s.mem
  obtain ⟨-, hlt⟩ := idxTss_pos_and_lt hc
  have hentry : m.read64 (entryAddress s.cfg s.cfg.idxTss) = some (tableEntry s.cfg s.cfg.idxTss) :=
    (storeTable_spec hm).1 s.cfg.idxTss hlt
  rw [tableEntry_idxTss hc] at hentry
  exact ⟨_, exec_tableLoad_of_store (s := applyReset p s) rfl rfl hm, hentry⟩

/-! ### Every step answers (R152) -/

/-- In a legal configuration every command answers a next state (R37). -/
theorem exec_answers {s : State} (hc : s.cfg.wf) (i : Instr) : ∃ t, exec i s = .next t :=
  (reportsFirstFailure hc i).imp fun _ h => h.1

/-- Settles O49: the step takes the command from the input, and the command answers with the rest of the input still
there. -/
theorem everyStepAnswersANextState : Obligations.EveryStepAnswersANextState := by
  intro s hc
  cases hin : s.input with
  | nil => exact ⟨s, step_of_input_nil hin, hin⟩
  | cons p rest =>
    cases hd : decodePorts p with
    | error r => exact ⟨_, step_of_decode_error hin hd, rfl⟩
    | ok i =>
      obtain ⟨t, ht⟩ := exec_answers (s := s.setInput rest) hc i
      exact ⟨t, (step_of_decode_ok hin hd).trans ht, exec_input ht⟩

end Sys2Proof.Machine
